-- ==== Sys2Proof/Word.lean ====
section
/-! DEFINITION. The word types: the command word, the 64-bit data word, and the plain helpers over them.
Every value of this block is unsigned (00_scope.md rule R13). -/

namespace Sys2Proof

/-- The 64-bit word of the data bus (`din`, `rsp_data`). A block word of W bits sits in its low bits, the rest 0
(20_memory.md rule R63). -/
abbrev Word := BitVec 64

/-- The 32-bit command word (30_encoding.md rule R83); FINFO and the registers have the same width. -/
abbrev CmdWord := BitVec 32

end Sys2Proof
end

