-- ==== Sys2Proof/Syntax.lean ====
section
/-! DEFINITION. The commands: one constructor per row of spec/opcode_table.json (30_encoding.md rule R85). -/

namespace Sys2Proof

/-- A command with its operands assembled as 30_encoding.md rule R84 says: indices are unsigned numbers, the
condition is one bit, and WRBLK carries the data word that travels on `din` with it (R90, R91).
WRBLK's data as an operand is a DESIGN CHOICE, safe: notes/assumptions/14.md. -/
inductive Instr where
  /-- Do nothing (42_control.md rule R170). -/
  | nop
  /-- Read cell i (40_bitfield.md rule R101). -/
  | read (i : Nat)
  /-- Toggle cell i (rule R104). -/
  | flip (i : Nat)
  /-- Toggle cell i if c (rule R107). -/
  | cflip (i : Nat) (c : Bool)
  /-- Advance the row by one generation (41_step.md rule R130). -/
  | step
  /-- Read block b (40_bitfield.md rule R110). -/
  | rdblk (b : Nat)
  /-- Write `din` to block b (rule R113). -/
  | wrblk (b : Nat) (din : Word)
  /-- Read register r (42_control.md rule R172). -/
  | rdreg (r : Nat)
deriving DecidableEq, Repr

end Sys2Proof
end

