-- ==== Sys2Proof/WellFormed.lean ====
section
/-! DEFINITION. Which commands have a command word: those whose index fits the 24-bit ARG field. -/

namespace Sys2Proof

/-- An index of a command word fits ARG (30_encoding.md rules R83 and R84). -/
def fitsArg (x : Nat) : Bool := decide (x < 16777216)

/-- A command whose operands fit their fields. For any other "no word is produced" (30_encoding.md rule R92).
An index that fits ARG but is out of range for the configuration is well formed: it faults when it executes (R89). -/
def Instr.wellFormed : Instr → Bool
  | .nop => true
  | .read i => fitsArg i
  | .flip i => fitsArg i
  | .cflip i _ => fitsArg i
  | .step => true
  | .rdblk b => fitsArg b
  | .wrblk b _ => fitsArg b
  | .rdreg r => fitsArg r

end Sys2Proof
end

