-- ==== Sys2Proof/Decode.lean ====
section
/-! DEFINITION. The decoder, total on every 32-bit word and rejecting by name (30_encoding.md rules R85 to R88), then
the encoder (rule R92's words), and the opcode table as data. -/

namespace Sys2Proof

/-- Why a word spells no command. Each of them raises ILLEGAL_CMD (60_exceptions.md rule R182). -/
inductive DecodeError where
  /-- Opcode 0x8 to 0xF (30_encoding.md rule R87). -/
  | reservedOpcode
  /-- RSV is not 0 (rule R88). -/
  | reservedBits
  /-- C is 1 in a word other than CFLIP (rule R88). -/
  | conditionBit
  /-- ARG is not 0 in a NOP or STEP word (rule R88). -/
  | argumentBits
deriving DecidableEq, Repr

/-- OP, bits 31 to 28 (30_encoding.md rule R83). -/
def opField (w : CmdWord) : Nat := (w.extractLsb' 28 4).toNat

/-- C, bit 27 (rule R83). -/
def condField (w : CmdWord) : Bool := w.getLsbD 27

/-- RSV, bits 26 to 24 (rule R83). -/
def rsvField (w : CmdWord) : Nat := (w.extractLsb' 24 3).toNat

/-- ARG, bits 23 to 0 (rule R83). -/
def argField (w : CmdWord) : Nat := (w.extractLsb' 0 24).toNat

/-- A command without operands: C and ARG are 0 (rules R85 and R88). -/
def decodePlain (w : CmdWord) (i : Instr) : Except DecodeError Instr :=
  if condField w then .error .conditionBit
  else if argField w = 0 then .ok i
  else .error .argumentBits

/-- A command whose ARG is its index: C is 0 (rules R85 and R88). -/
def decodeIndexed (w : CmdWord) (mk : Nat → Instr) : Except DecodeError Instr :=
  if condField w then .error .conditionBit else .ok (mk (argField w))

/-- The command that word `w` spells, with `din` for the data of a WRBLK (rules R84 to R88). -/
def decode (w : CmdWord) (din : Word) : Except DecodeError Instr :=
  if rsvField w = 0 then
    match opField w with
    | 0 => decodePlain w .nop
    | 1 => decodeIndexed w .read
    | 2 => decodeIndexed w .flip
    | 3 => .ok (.cflip (argField w) (condField w))
    | 4 => decodePlain w .step
    | 5 => decodeIndexed w .rdblk
    | 6 => decodeIndexed w (fun b => .wrblk b din)
    | 7 => decodeIndexed w .rdreg
    | _ => .error .reservedOpcode
  else .error .reservedBits

/-- A command word from its fields (rule R83). -/
def packWord (op : BitVec 4) (c : Bool) (arg : Nat) : CmdWord :=
  op ++ (BitVec.ofBool c ++ (0#3 ++ BitVec.ofNat 24 arg))

/-- The command word of a command (rules R85 and R92). -/
def encodeWord : Instr → CmdWord
  | .nop => packWord 0x0 false 0
  | .read i => packWord 0x1 false i
  | .flip i => packWord 0x2 false i
  | .cflip i c => packWord 0x3 c i
  | .step => packWord 0x4 false 0
  | .rdblk b => packWord 0x5 false b
  | .wrblk b _ => packWord 0x6 false b
  | .rdreg r => packWord 0x7 false r

/-- The data word that travels with a command: WRBLK's data, and nothing (0) for the rest, which ignore `din` (rule R91). -/
def encodeDin : Instr → Word
  | .wrblk _ din => din
  | _ => 0

/-- One row of the opcode map (rule R85). -/
structure OpcodeRow where
  mnemonic : String
  pattern : CmdWord
  mask : CmdWord
deriving DecidableEq, Repr

/-- The row matches a word: `(w AND mask) = match` (rule R86). -/
def OpcodeRow.accepts (r : OpcodeRow) (w : CmdWord) : Bool := w &&& r.mask == r.pattern

/-- The row of rule R85 that a command belongs to. -/
def Instr.row : Instr → OpcodeRow
  | .nop => ⟨"NOP", 0x00000000, 0xFFFFFFFF⟩
  | .read _ => ⟨"READ", 0x10000000, 0xFF000000⟩
  | .flip _ => ⟨"FLIP", 0x20000000, 0xFF000000⟩
  | .cflip _ _ => ⟨"CFLIP", 0x30000000, 0xF7000000⟩
  | .step => ⟨"STEP", 0x40000000, 0xFFFFFFFF⟩
  | .rdblk _ => ⟨"RDBLK", 0x50000000, 0xFF000000⟩
  | .wrblk _ _ => ⟨"WRBLK", 0x60000000, 0xFF000000⟩
  | .rdreg _ => ⟨"RDREG", 0x70000000, 0xFF000000⟩

/-- The opcode map, in the order of rule R85. -/
def opcodeTable : List OpcodeRow :=
  [Instr.row .nop, Instr.row (.read 0), Instr.row (.flip 0), Instr.row (.cflip 0 false), Instr.row .step,
   Instr.row (.rdblk 0), Instr.row (.wrblk 0 0), Instr.row (.rdreg 0)]

/-- What the decoder reads from the word whose bits are `w`, of which a table row gives the low `nbits` (all 32 for
every row of this table: rule R90). `din` is a data word of zeros. -/
def decodeTableWord (nbits w : Nat) : Option Instr :=
  match decode (BitVec.ofNat 32 (w % 2 ^ nbits)) 0 with
  | .ok i => some i
  | .error _ => none

end Sys2Proof
end

