-- ==== Sys2Proof/Config.lean ====
section
/-! DEFINITION. The configuration parameters N, W, RULE and INIT (00_scope.md rules R6 to R11), which nothing changes
once reset is released (70_reset_and_hazards.md rule R215), and the free values of the hidden sequencer registers. -/

namespace Sys2Proof

/-- One configuration. N and W are stored as their distance from their least legal value, so that a configuration
outside rules R6 and R7 has no value of this type: "the model has no instance for it" (R6).
DESIGN CHOICE, safe: notes/assumptions/1.md. -/
structure Params where
  /-- N - 3, so that 3 <= N <= 2^24 (R6). -/
  cellsLess3 : Fin 16777214
  /-- W - 1, so that 1 <= W <= 64 (R7). -/
  widthLess1 : Fin 64
  /-- RULE: bit k is the next state of a centre cell whose neighbourhood code is k (R9, R33). -/
  rule : BitVec 8
  /-- INIT, block 0 first. A block the list does not reach has the default, 0 (R10).
  DEDUCED, safe: notes/assumptions/4.md. -/
  init : List Word
deriving DecidableEq, Repr

/-- N, the cell count (R6). -/
def Params.n (p : Params) : Nat := p.cellsLess3.val + 3

/-- W, the block width in bits (R7). -/
def Params.w (p : Params) : Nat := p.widthLess1.val + 1

/-- The configuration with the given N, W, RULE and INIT, where rules R6 and R7 admit it; none is the refusal of
every other one (93_implementation_defined.md U5). -/
def Params.make? (n w : Nat) (rule : BitVec 8) (init : List Word) : Option Params :=
  if h : 3 ≤ n ∧ n ≤ 16777216 ∧ 1 ≤ w ∧ w ≤ 64 then
    some { cellsLess3 := ⟨n - 3, by omega⟩, widthLess1 := ⟨w - 1, by omega⟩, rule := rule, init := init }
  else none

/-- REF, the reference configuration (R11): N = 24, W = 8, RULE = 0x6E, INIT = 0x00, 0x01, 0x02.
RULE = 0x6E is PRESUMED (general knowledge, as rule R35 says): notes/assumptions/3.md. -/
def Params.ref : Params :=
  { cellsLess3 := 21, widthLess1 := 7, rule := 0x6E, init := [0x00, 0x01, 0x02] }

/-- A bit position of the storage: block and bit within the block (10_state.md rule R42). -/
structure Pos where
  blk : Nat
  bit : Nat
deriving DecidableEq, Repr, Inhabited

/-- The hidden sequencer registers (10_state.md rule R42). -/
structure SeqRegs where
  /-- I, the iteration counter. -/
  i : Nat
  /-- WL, the left window position. -/
  wl : Pos
  /-- WC, the centre window position. -/
  wc : Pos
  /-- WR, the right window position. -/
  wr : Pos
  /-- PREV, the value computed and not yet written to WL. -/
  prev : Bool
  /-- CURR, the value computed in the current iteration. -/
  curr : Bool
deriving DecidableEq, Repr, Inhabited

/-- The hidden sequencer registers between commands: "no defined value" (10_state.md rule R43;
93_implementation_defined.md U2). This is the n-th value drawn, and nothing constrains it.
DESIGN CHOICE, safe: notes/assumptions/10.md. -/
opaque Config.freeSeqRegs : Nat → SeqRegs

end Sys2Proof
end

