-- ==== Sys2Proof/Machine/State.lean ====
section
/-! DEFINITION. The state of one ECA-STEP instance with its ports (10_state.md rule R30 and section 6; 30_encoding.md
rule R80), the reasons a step can stop, and the state after reset. -/

namespace Sys2Proof.Machine

/-- The cause of the first recorded fault (60_exceptions.md rule R181). -/
inductive Cause where
  /-- No fault recorded (code 0). -/
  | none
  /-- The word matches no row of the opcode map (R182). -/
  | illegalCmd
  /-- A cell index outside 0 .. N-1 (R183). -/
  | indexRange
  /-- A block index outside 0 .. NB-1 (R184). -/
  | blockRange
  /-- A register number above 4 (R185). -/
  | regRange
  /-- Reserved; never raised (R186). -/
  | ruleMalformed
deriving DecidableEq, Repr

/-- SEQ, the sequencer phase (10_state.md rule R42). -/
inductive SeqPhase where
  | idle
  | loop
  | flush
deriving DecidableEq, Repr

/-- The step sequencer: its phase and its hidden registers. -/
structure Sequencer where
  phase : SeqPhase
  regs : SeqRegs
deriving DecidableEq, Repr

/-- The sequencer after reset: SEQ = IDLE. The hidden registers are unspecified there (70_reset_and_hazards.md rule
R211); the values are a DESIGN CHOICE, unsafe: notes/assumptions/9.md. -/
def Sequencer.reset : Sequencer :=
  { phase := .idle, regs := { i := 3, wl := ⟨0, 0⟩, wc := ⟨0, 0⟩, wr := ⟨0, 0⟩, prev := false, curr := false } }

/-- A response `(rsp_err, rsp_data)` (30_encoding.md rule R82). -/
structure Response where
  err : Bool
  data : Word
deriving DecidableEq, Repr

/-- One offered command: the word on `cmd` and the word on `din` (30_encoding.md rule R80). -/
structure Command where
  cmd : CmdWord
  din : Word
deriving DecidableEq, Repr

/-- What the host does with `rst` in one step (30_encoding.md rules R80 and R94).
DESIGN CHOICE, safe: notes/assumptions/8.md. -/
inductive RstEvent where
  /-- `rst` stays low for the whole step. -/
  | low
  /-- `rst` is high: the block is held in reset and accepts nothing (70_reset_and_hazards.md rules R210 and R211). -/
  | high
  /-- `rst` rises after the next command was accepted and before its response (R212). -/
  | during
deriving DecidableEq, Repr

/-- The storage: pairs of a block index and that block's word, in one canonical form (`Memory.wf`): indices strictly
rising, and no word equal to what an unlisted block reads as. DESIGN CHOICE, safe: notes/assumptions/5.md. -/
abbrev Memory := List (Nat × Word)

/-- One instance, with its ports and what the host is about to do. What is left out, and what the host is taken not to
do: notes/assumptions/17.md and 18.md. -/
structure State where
  /-- The configuration parameters; no step changes them (R215). -/
  cfg : Params
  /-- `Blk`, the cell storage (R31), listed where it differs from its reset contents. -/
  mem : Memory
  /-- STATUS.FAULT (R36). -/
  fault : Bool
  /-- STATUS.CAUSE (R36, R181). -/
  cause : Cause
  /-- FINFO (R37). -/
  finfo : CmdWord
  /-- The step sequencer (R42). -/
  seq : Sequencer
  /-- The level of `rst` in the last step (R80). -/
  rst : Bool
  /-- The response port: the response the last step presented; none is `rsp_valid = 0` (R80, R82).
  DESIGN CHOICE, safe: notes/assumptions/12.md. -/
  rsp : Option Response
  /-- The commands the host offers, oldest first (R70, R80, R81). DESIGN CHOICE, safe: notes/assumptions/7.md. -/
  cmds : List Command
  /-- What the host does with `rst` in the coming steps, one entry a step; empty is low for good.
  DESIGN CHOICE, safe: notes/assumptions/8.md. -/
  rstIn : List RstEvent
  /-- The MODEL's own: how many free values have been drawn. DESIGN CHOICE, safe: notes/assumptions/10.md. -/
  fresh : Nat
deriving DecidableEq, Repr

/-- Why the machine stops. -/
inductive Fault where
  /-- Raised by the step sequencer when it dereferences a position that holds no cell: a padding bit or `pos(N)`
  (20_memory.md rule R69; 93_implementation_defined.md U15). The sequencer never does so (41_step.md rule R145), so
  no state raises it. Safe. -/
  | notACell (blk bit : Nat)
deriving DecidableEq, Repr

/-- Why an instruction has no meaning. -/
inductive Refusal where
  /-- Raised by an arm of `exec` for an instruction not modelled yet; no arm raises it. Safe. -/
  | notModelled (mnemonic : String)
deriving DecidableEq, Repr

/-- What an instruction or a step answers. -/
abbrev Result := Host.Outcome State Fault Refusal

/-- The state right after reset of the instance with configuration `p`, `rst` released, and nothing offered by the
host (70_reset_and_hazards.md rules R210 and R211): every block reads INIT, so nothing is listed. -/
def State.resetFor (p : Params) : State :=
  { cfg := p, mem := [], fault := false, cause := .none, finfo := 0, seq := Sequencer.reset,
    rst := false, rsp := none, cmds := [], rstIn := [], fresh := 0 }

/-- The state right after reset, in the reference configuration REF (00_scope.md rule R11).
DESIGN CHOICE of the configuration: notes/assumptions/2.md. -/
def State.reset : State := State.resetFor Params.ref

end Sys2Proof.Machine
end

