-- ==== Sys2Proof/Machine/Geometry.lean ====
section
/-! DEFINITION. Where cells, blocks and padding bits lie (00_scope.md rules R8 and R14, 10_state.md rules R31 and R32). -/

namespace Sys2Proof.Machine

/-- NB = (N + W - 1) div W, the block count (R8). -/
def nb (p : Params) : Nat := (p.n + p.w - 1) / p.w

/-- `NB*W - N`, how many low-order bits of the last block hold no cell (R8, R32). -/
def padBits (p : Params) : Nat := nb p * p.w - p.n

/-- The position of index i: `(i div W, W - 1 - (i mod W))` (41_step.md rule R139, 00_scope.md rule R14). -/
def pos (p : Params) (i : Nat) : Pos := { blk := i / p.w, bit := p.w - 1 - i % p.w }

/-- The position after a position: one bit lower, or the top bit of the next block (41_step.md rule R139). -/
def nextPos (p : Params) (q : Pos) : Pos :=
  if q.bit = 0 then { blk := q.blk + 1, bit := p.w - 1 } else { blk := q.blk, bit := q.bit - 1 }

/-- The position holds a cell: it is `pos(i)` for some `i < N` (20_memory.md rules R61 and R69). -/
def isCell (p : Params) (q : Pos) : Bool :=
  decide (q.bit < p.w ∧ q.blk * p.w + (p.w - 1 - q.bit) < p.n)

/-- The bits of a block word that hold cells: the low W bits, less the padding bits in the last block (R31, R32);
none in a block that does not exist. -/
def cellMask (p : Params) (b : Nat) : Word :=
  if b + 1 < nb p then BitVec.allOnes 64 >>> (64 - p.w)
  else if b + 1 = nb p then ((BitVec.allOnes 64 >>> (64 - p.w)) >>> padBits p) <<< padBits p
  else 0

/-- What reset loads into block b: INIT[b], cut to W bits, with the padding bits forced to 0 (R10, R32, R210). -/
def initWord (p : Params) (b : Nat) : Word := p.init.getD b 0 &&& cellMask p b

end Sys2Proof.Machine
end

