-- ==== Sys2Proof/Machine/Ops.lean ====
section
/-! DEFINITION. The named operations: storage reads and writes (00_scope.md rule R15), the response (30_encoding.md rule
R82), fault entry and refusal (60_exceptions.md rules R188 and R190), and reset (70_reset_and_hazards.md rule R210). -/

namespace Sys2Proof.Machine

/-- The word of block b; a block that is not listed reads as reset left it (R15 `MemRead`, R211). -/
def Memory.read (p : Params) (m : Memory) (b : Nat) : Word := (m.lookup b).getD (initWord p b)

/-- Every entry but block b's. -/
def Memory.erase (m : Memory) (b : Nat) : Memory := m.filter (fun e => e.1 != b)

/-- An entry put before the first one with a higher index. -/
def Memory.insert (b : Nat) (v : Word) : Memory → Memory
  | [] => [(b, v)]
  | (k, x) :: m => if b < k then (b, v) :: (k, x) :: m else (k, x) :: Memory.insert b v m

/-- Block b's word becomes v, every bit of it; the canonical form is kept. -/
def Memory.store (p : Params) (m : Memory) (b : Nat) (v : Word) : Memory :=
  if v = initWord p b then Memory.erase m b else Memory.insert b v (Memory.erase m b)

/-- The canonical form: indices strictly rise; each listed word holds cells' bits only and differs from what the
block reads as unlisted. (So every listed index is a block's.) -/
def Memory.wf (p : Params) (m : Memory) : Bool :=
  decide (m.Pairwise (fun x y => x.1 < y.1)) &&
    m.all (fun e => e.2 != initWord p e.1 && e.2 &&& cellMask p e.1 == e.2)

/-- `Blk[b]` (R15 `MemRead`). -/
def State.blk (s : State) (b : Nat) : Word := Memory.read s.cfg s.mem b

/-- `Cell@q`: the storage bit at a position (41_step.md, notation). -/
def State.bitAt (s : State) (q : Pos) : Bool := (s.blk q.blk).getLsbD q.bit

/-- `Cell(i)` (00_scope.md rule R14); the commands use it for `i < N` only. -/
def State.cell (s : State) (i : Nat) : Bool := s.bitAt (pos s.cfg i)

/-- `Blk[b] <- v` for a legal block, with the bits that hold no cell forced to 0 (R15 `MemWrite`, R32, R91). -/
def memWrite (s : State) (b : Nat) (v : Word) : State :=
  { s with mem := Memory.store s.cfg s.mem b (v &&& cellMask s.cfg b) }

/-- Toggle the storage bit at a position; every other bit is unchanged (R15 `Flip`). -/
def flipAt (s : State) (q : Pos) : State :=
  { s with mem := Memory.store s.cfg s.mem q.blk (s.blk q.blk ^^^ BitVec.twoPow 64 q.bit) }

/-- Toggle the bit at a position if the condition holds (R15 `CondFlip`). -/
def condFlipAt (s : State) (q : Pos) (c : Bool) : State := if c then flipAt s q else s

/-- Complete the current command with a response (R15 `respond`, 30_encoding.md rule R82). -/
def respond (s : State) (err : Bool) (data : Word) : State := { s with rsp := some { err := err, data := data } }

/-- A command refused while FAULT = 1: no effect but the response (1, 0) (60_exceptions.md rule R190). -/
def refuse (s : State) : State := respond s true 0

/-- Fault entry, the one exception of this block (60_exceptions.md rule R188). Control goes nowhere, and there is no
return from it but `resetBlock` (R191). -/
def raiseFault (s : State) (c : Cause) (w : CmdWord) : State :=
  respond (if s.fault then s else { s with fault := true, cause := c, finfo := w }) true 0

/-- `rst` is asserted (70_reset_and_hazards.md rules R210 to R212): every block reads INIT again, STATUS and FINFO are
cleared, SEQ is IDLE, no response is pending. What the host will do next, and the model's own counter, stay. -/
def resetBlock (s : State) : State :=
  { s with mem := [], fault := false, cause := .none, finfo := 0, seq := Sequencer.reset, rst := true, rsp := none }

/-- A command that breaks its contract: refused while FAULT = 1, a fault otherwise (60_exceptions.md rules R189, R190). -/
def violation (s : State) (c : Cause) (w : CmdWord) : State := if s.fault then refuse s else raiseFault s c w

/-- The order of checks of a command that the fault state refuses (60_exceptions.md rule R189, steps 1, 3 and 4): the
refusal, then the operand's range, then the effect. -/
def checked (s : State) (legal : Bool) (c : Cause) (w : CmdWord) (effect : State) : Result :=
  if s.fault then .next (refuse s) else if legal then .next effect else .next (raiseFault s c w)

end Sys2Proof.Machine
end

