-- ==== Sys2Proof/Machine/Operands.lean ====
section
/-! DEFINITION. The operand forms and their legal ranges (30_encoding.md rule R84), and bits as response data. -/

namespace Sys2Proof.Machine

/-- A cell index is legal (R60, R183). -/
def cellLegal (p : Params) (i : Nat) : Bool := decide (i < p.n)

/-- A block index is legal (R60, R184). -/
def blockLegal (p : Params) (b : Nat) : Bool := decide (b < nb p)

/-- A register number is legal (R60, R185). -/
def regLegal (r : Nat) : Bool := decide (r ≤ 4)

/-- `zext_64` of one bit (R13). -/
def bitData (v : Bool) : Word := if v then 1 else 0

/-- `zext_64` of a register (R13). -/
def regData (v : CmdWord) : Word := v.setWidth 64

end Sys2Proof.Machine
end

