-- ==== Sys2Proof/Machine/Flags.lean ====
section
/-! DEFINITION. STATUS and the registers RDREG reads (10_state.md rules R36 to R38), the rule lookup (rule R33), and
the output ports that copy state (30_encoding.md rule R80). The only flag is STATUS.FAULT (rule R41). -/

namespace Sys2Proof.Machine

/-- The 4-bit code of a cause (60_exceptions.md rule R181). -/
def causeCode : Cause → BitVec 4
  | .none => 0
  | .illegalCmd => 1
  | .indexRange => 2
  | .blockRange => 3
  | .regRange => 4
  | .ruleMalformed => 5

/-- STATUS: [0] FAULT, [3:1] 0, [7:4] CAUSE, [15:8] RULE, [31:16] 0 (10_state.md rule R36). -/
def State.status (s : State) : CmdWord :=
  0#16 ++ (s.cfg.rule ++ (causeCode s.cause ++ (0#3 ++ BitVec.ofBool s.fault)))

/-- The register with number r: STATUS, FINFO, CFG_N, CFG_W, CFG_NB (42_control.md rule R172). -/
def readReg (s : State) : Nat → CmdWord
  | 0 => s.status
  | 1 => s.finfo
  | 2 => BitVec.ofNat 32 s.cfg.n
  | 3 => BitVec.ofNat 32 s.cfg.w
  | _ => BitVec.ofNat 32 (nb s.cfg)

/-- The neighbourhood code `left*4 + centre*2 + right` (00_scope.md rule R16). -/
def neighbourhood (l c r : Bool) : Nat := l.toNat * 4 + c.toNat * 2 + r.toNat

/-- `RULE[l*4 + c*2 + r]` (10_state.md rule R33). -/
def ruleNext (p : Params) (l c r : Bool) : Bool := p.rule.getLsbD (neighbourhood l c r)

/-- `fault_o` (60_exceptions.md rule R192). -/
def State.faultO (s : State) : Bool := s.fault

/-- `cmd_ready` between two commands: low while `rst` is asserted (30_encoding.md rule R81, 60_exceptions.md rule
R200, 70_reset_and_hazards.md rule R211). DEDUCED, safe: notes/assumptions/6.md. -/
def State.cmdReady (s : State) : Bool := !s.rst

/-- `rsp_valid` (30_encoding.md rule R80). -/
def State.rspValid (s : State) : Bool := s.rsp.isSome

end Sys2Proof.Machine
end

