-- ==== Sys2Proof/Machine/BitField.lean ====
section
/-! DEFINITION. READ, FLIP, CFLIP, RDBLK and WRBLK (40_bitfield.md). Each runs its checks in the order of
60_exceptions.md rule R189; a fault records the command's own word, `encodeWord` of it (DEDUCED, safe:
notes/assumptions/13.md). An index that fits no command word is a DESIGN CHOICE, safe: notes/assumptions/19.md. -/

namespace Sys2Proof.Machine

/-- READ i (rule R101). -/
def execRead (i : Nat) (s : State) : Result :=
  checked s (cellLegal s.cfg i) .indexRange (encodeWord (.read i)) (respond s false (bitData (s.cell i)))

/-- FLIP i (rule R104). -/
def execFlip (i : Nat) (s : State) : Result :=
  checked s (cellLegal s.cfg i) .indexRange (encodeWord (.flip i)) (respond (flipAt s (pos s.cfg i)) false 0)

/-- CFLIP i, c (rule R107): the range is checked for either value of c. -/
def execCflip (i : Nat) (c : Bool) (s : State) : Result :=
  checked s (cellLegal s.cfg i) .indexRange (encodeWord (.cflip i c))
    (respond (condFlipAt s (pos s.cfg i) c) false 0)

/-- RDBLK b (rule R110). -/
def execRdblk (b : Nat) (s : State) : Result :=
  checked s (blockLegal s.cfg b) .blockRange (encodeWord (.rdblk b)) (respond s false (s.blk b))

/-- WRBLK b with `din` (rule R113). -/
def execWrblk (b : Nat) (din : Word) (s : State) : Result :=
  checked s (blockLegal s.cfg b) .blockRange (encodeWord (.wrblk b din)) (respond (memWrite s b din) false 0)

end Sys2Proof.Machine
end

