-- ==== Sys2Proof/Machine/Control.lean ====
section
/-! DEFINITION. NOP and RDREG (42_control.md): the two commands a fault state executes (60_exceptions.md rule R190). -/

namespace Sys2Proof.Machine

/-- NOP (rule R170): it executes while FAULT = 1 too. -/
def execNop (s : State) : Result := .next (respond s false 0)

/-- RDREG r (rule R172): a legal r executes while FAULT = 1 too; any other is refused then, and faults otherwise. -/
def execRdreg (r : Nat) (s : State) : Result :=
  if regLegal r then .next (respond s false (regData (readReg s r)))
  else .next (violation s .regRange (encodeWord (.rdreg r)))

end Sys2Proof.Machine
end

