-- ==== Sys2Proof/Machine/StepEngine.lean ====
section
/-! DEFINITION. STEP, by the sequencer of 41_step.md rules R133 to R138, every access of it guarded: a position that
holds no cell is a fault of the model (DESIGN CHOICE, safe: notes/assumptions/11.md). STEP is atomic (20_memory.md
rule R66), so the whole sequence is one instruction. -/

namespace Sys2Proof.Machine

/-- `Cell@q` read by the sequencer. -/
def seqRead (s : State) (q : Pos) : Except Fault Bool :=
  if isCell s.cfg q then .ok (s.bitAt q) else .error (.notACell q.blk q.bit)

/-- `CondFlip@q (Cell@q XOR v)`: the cell at q becomes v (rule R135). -/
def seqPut (s : State) (q : Pos) (v : Bool) : Except Fault State := do
  let x ← seqRead s q
  return condFlipAt s q (x ^^ v)

/-- New contents of the sequencer's registers in phase `ph`. -/
def setSeq (s : State) (ph : SeqPhase) (r : SeqRegs) : State := { s with seq := { phase := ph, regs := r } }

/-- Start: the window on cells 0, 1, 2, PREV the value of cell 0, I = 3; CURR is not written (rule R133). -/
def seqStart (s : State) : Except Fault State := do
  let prev ← seqRead s (pos s.cfg 0)
  return setSeq s .loop
    { s.seq.regs with wl := pos s.cfg 0, wc := pos s.cfg 1, wr := pos s.cfg 2, prev := prev, i := 3 }

/-- Sub-step (a), the pattern lookup: `CURR <- RULE[CODE]` (rule R134). -/
def seqLookup (s : State) : Except Fault State := do
  let l ← seqRead s s.seq.regs.wl
  let c ← seqRead s s.seq.regs.wc
  let r ← seqRead s s.seq.regs.wr
  return setSeq s s.seq.phase { s.seq.regs with curr := ruleNext s.cfg l c r }

/-- Sub-step (b), the delayed write: the cell at WL becomes PREV (rule R135). -/
def seqWrite (s : State) : Except Fault State := seqPut s s.seq.regs.wl s.seq.regs.prev

/-- Sub-step (c), the shift of the window by one cell (rule R136). -/
def seqShift (s : State) : State :=
  setSeq s s.seq.phase
    { i := s.seq.regs.i + 1, wl := s.seq.regs.wc, wc := s.seq.regs.wr, wr := pos s.cfg s.seq.regs.i,
      prev := s.seq.regs.curr, curr := s.seq.regs.curr }

/-- One iteration: (a), (b), (c) in that order (rule R132). -/
def seqIter (s : State) : Except Fault State := do
  let a ← seqLookup s
  let b ← seqWrite a
  return seqShift b

/-- The loop `while I <= N` (rule R137), with at most `fuel` iterations. -/
def seqLoop : Nat → State → Except Fault State
  | 0, s => .ok s
  | fuel + 1, s => if s.seq.regs.i ≤ s.cfg.n then seqIter s >>= seqLoop fuel else .ok s

/-- Flush: the cell at WL becomes CURR (rule R138). -/
def seqFlush (s : State) : Except Fault State :=
  seqPut (setSeq s .flush s.seq.regs) s.seq.regs.wl s.seq.regs.curr

/-- End: SEQ is IDLE, and the hidden registers hold no defined value (rules R138 and R43). -/
def seqEnd (s : State) : State :=
  { setSeq s .idle (Config.freeSeqRegs s.fresh) with fresh := s.fresh + 1 }

/-- The whole sequence. N iterations are allowed, and the loop's own condition ends it after N - 2 (rule R137). -/
def runSequencer (s : State) : Except Fault State := do
  let a ← seqStart s
  let b ← seqLoop s.cfg.n a
  let c ← seqFlush b
  return seqEnd c

/-- STEP (rule R130). Its only check is the fault state's refusal (rule R150). -/
def execStep (s : State) : Result :=
  if s.fault then .next (refuse s)
  else
    match runSequencer s with
    | .ok t => .next (respond t false 0)
    | .error f => .fault f

end Sys2Proof.Machine
end

