-- ==== Sys2Proof/Machine/Dispatch.lean ====
section
/-! DEFINITION. One arm per command. -/

namespace Sys2Proof.Machine

/-- The meaning of each command. -/
def exec (i : Instr) (s : State) : Host.Outcome State Fault Refusal :=
  match i with
  | .nop => Sys2Proof.Machine.execNop s
  | .read idx => Sys2Proof.Machine.execRead idx s
  | .flip idx => Sys2Proof.Machine.execFlip idx s
  | .cflip idx c => Sys2Proof.Machine.execCflip idx c s
  | .step => Sys2Proof.Machine.execStep s
  | .rdblk b => Sys2Proof.Machine.execRdblk b s
  | .wrblk b din => Sys2Proof.Machine.execWrblk b din s
  | .rdreg r => Sys2Proof.Machine.execRdreg r s

end Sys2Proof.Machine
end

