-- ==== Sys2Proof/Machine/Interface.lean ====
section
/-! DEFINITION. The command interface (30_encoding.md rules R80 to R82 and R94; 70_reset_and_hazards.md rules R210 and
R212): one step of the block is one transaction (DEDUCED, safe: notes/assumptions/6.md). -/

namespace Sys2Proof.Machine

/-- An accepted word that spells no command: refused in the fault state, ILLEGAL_CMD otherwise (60_exceptions.md
rules R182, R189 and R190). -/
def illegalWord (w : CmdWord) (s : State) : Result := .next (violation s .illegalCmd w)

/-- Execute an accepted command (60_exceptions.md rule R189). Where the fault state's refusal stands: DEDUCED, safe,
notes/assumptions/20.md. -/
def executeCommand (c : Command) (s : State) : Result :=
  match decode c.cmd c.din with
  | .ok i => exec i s
  | .error _ => illegalWord c.cmd s

/-- The state in which an accepted command executes: the host now offers `rest`, `rst` is low, no response is
presented yet (30_encoding.md rules R80 and R81). -/
def accepted (s : State) (rest : List Command) : State := { s with cmds := rest, rst := false, rsp := none }

/-- A step with `rst` low: the oldest offered command is accepted, executed and answered; with none offered the
block is idle and keeps its state (60_exceptions.md rule R200). -/
def transact (s : State) : Result :=
  match s.cmds with
  | [] => .next (accepted s [])
  | c :: rest => executeCommand c (accepted s rest)

/-- One step of the block under what the host does with `rst` in it (70_reset_and_hazards.md rules R210 and R212). -/
def hostStep (s : State) : Result :=
  match s.rstIn with
  | [] => transact s
  | .low :: later => transact { s with rstIn := later }
  | .high :: later => .next (resetBlock { s with rstIn := later })
  | .during :: later => .next (resetBlock { s with rstIn := later, cmds := s.cmds.tail })

/-- The host offers `c` as the very next command, with `rst` low in that step. -/
def offer (s : State) (c : Command) : State :=
  { s with cmds := c :: s.cmds, rstIn := .low :: s.rstIn }

end Sys2Proof.Machine
end

