-- ==== Sys2Proof/Machine/Step.lean ====
section
/-! DEFINITION. The step of the machine, and the placing of one command before it. -/

namespace Sys2Proof.Machine

/-- One step: `hostStep`. -/
def step (s : State) : Host.Outcome State Fault Refusal := hostStep s

/-- The word whose low `nbits` bits are those of `w` offered as the very next command, with a data word of zeros and
`rst` low. Commands are never stored in the block: offering one is what the host does (10_state.md rule R40).
notes/assumptions/7.md says how a program comes to run. -/
def State.withFetchWord (s : State) (nbits w : Nat) : State :=
  offer s { cmd := BitVec.ofNat 32 (w % 2 ^ nbits), din := 0 }

end Sys2Proof.Machine
end

