-- ==== Sys2Proof/Machine/ShiftRegister.lean ====
section
/-! DEFINITION. The shift-register realisation of STEP's pass (41_step.md rule R143): a block may keep the window's three
values in a register and read each cell once. `exec` runs the sequencer of rules R133 to R138; this is what a statement
compares it with. -/

namespace Sys2Proof.Machine

/-- The pipeline of rule R143: the three old values of the window, the pending result, and I. -/
structure ShiftPipe where
  left : Bool
  centre : Bool
  right : Bool
  prev : Bool
  i : Nat
deriving DecidableEq, Repr

/-- Start: cells 0, 1 and 2 are read; the pending result is cell 0's own value. -/
def shiftStart (s : State) : ShiftPipe :=
  { left := s.cell 0, centre := s.cell 1, right := s.cell 2, prev := s.cell 0, i := 3 }

/-- One iteration: cell I-3, whose old value is on the left, becomes the pending result; the register shifts, taking in
cell I where there is one and nothing where I = N. -/
def shiftIter (s : State) (p : ShiftPipe) : State × ShiftPipe :=
  (condFlipAt s (pos s.cfg (p.i - 3)) (p.left ^^ p.prev),
   { left := p.centre, centre := p.right, right := if p.i < s.cfg.n then s.cell p.i else p.right,
     prev := ruleNext s.cfg p.left p.centre p.right, i := p.i + 1 })

/-- k iterations. -/
def shiftLoop : Nat → State → ShiftPipe → State × ShiftPipe
  | 0, s, p => (s, p)
  | k + 1, s, p => shiftLoop k (shiftIter s p).1 (shiftIter s p).2

/-- The whole pass: N - 2 iterations, then the flush of the last pending result to cell N-2. -/
def shiftRun (s : State) : State :=
  let o := shiftLoop (s.cfg.n - 2) s (shiftStart s)
  condFlipAt o.1 (pos s.cfg (s.cfg.n - 2)) (o.2.left ^^ o.2.prev)

end Sys2Proof.Machine
end

