-- ==== Sys2Proof/Machine/Assembly.lean ====
section
/-! DEFINITION. The host's side of the command interface: the assembly syntax of 30_encoding.md rule R92, one line at a
time. The block itself only ever sees the command words (rule R93). Spacing and the case of hexadecimal digits are a
DESIGN CHOICE, safe: notes/assumptions/15.md. -/

namespace Sys2Proof.Machine

/-- The command of an instruction, as the host offers it: its word on `cmd`, its data on `din` (R90). -/
def commandOf (i : Instr) : Command := { cmd := encodeWord i, din := encodeDin i }

/-- The command of an instruction whose operands fit their fields; for any other, "no word is produced" (R92). -/
def assemble (i : Instr) : Option Command := if i.wellFormed then some (commandOf i) else none

/-- The commands of a sequence of instructions; none where one of them produces no word (R92). -/
def assembleAll : List Instr → Option (List Command)
  | [] => some []
  | i :: is =>
    match assemble i, assembleAll is with
    | some c, some cs => some (c :: cs)
    | _, _ => none

/-- A blank between the words of a line. -/
def isBlank (c : Char) : Bool := c == ' ' || c == '\t'

/-- A text without its leading and trailing blanks. -/
def trimBlanks (cs : List Char) : List Char :=
  ((cs.dropWhile isBlank).reverse.dropWhile isBlank).reverse

/-- The pieces of a text between its commas. -/
def splitCommas : List Char → List (List Char)
  | [] => [[]]
  | c :: cs =>
    match splitCommas cs with
    | [] => [[c]]
    | p :: ps => if c == ',' then [] :: p :: ps else (c :: p) :: ps

/-- The value of a digit in a base. -/
def digitValue (base : Nat) (c : Char) : Option Nat :=
  let v :=
    if '0'.toNat ≤ c.toNat ∧ c.toNat ≤ '9'.toNat then c.toNat - '0'.toNat
    else if 'A'.toNat ≤ c.toNat ∧ c.toNat ≤ 'F'.toNat then c.toNat - 'A'.toNat + 10
    else if 'a'.toNat ≤ c.toNat ∧ c.toNat ≤ 'f'.toNat then c.toNat - 'a'.toNat + 10
    else base
  if v < base then some v else none

/-- The number a run of digits spells, after the value of the digits before it. -/
def digitsValue (base : Nat) : List Char → Nat → Option Nat
  | [], n => some n
  | c :: cs, n =>
    match digitValue base c with
    | some d => digitsValue base cs (n * base + d)
    | none => none

/-- "Operands are decimal or `0x` hexadecimal unsigned integers" (R92). -/
def parseNumber : List Char → Option Nat
  | [] => none
  | '0' :: 'x' :: [] => none
  | '0' :: 'x' :: cs => digitsValue 16 cs 0
  | cs => digitsValue 10 cs 0

/-- A register operand: a name or a number (R92). -/
def parseRegister (cs : List Char) : Option Nat :=
  if cs = ['S', 'T', 'A', 'T', 'U', 'S'] then some 0
  else if cs = ['F', 'I', 'N', 'F', 'O'] then some 1
  else if cs = ['C', 'F', 'G', '_', 'N'] then some 2
  else if cs = ['C', 'F', 'G', '_', 'W'] then some 3
  else if cs = ['C', 'F', 'G', '_', 'N', 'B'] then some 4
  else parseNumber cs

/-- One operand, no more and no fewer. -/
def oneOperand (parse : List Char → Option Nat) : List (List Char) → Option Nat
  | [a] => parse a
  | _ => none

/-- Two operands, no more and no fewer. -/
def twoOperands : List (List Char) → Option (Nat × Nat)
  | [a, b] =>
    match parseNumber a, parseNumber b with
    | some x, some y => some (x, y)
    | _, _ => none
  | _ => none

/-- The instruction that a mnemonic and its operands spell; none is an assembly error (R92). A condition other than 0
or 1 and data of 2^64 or more are errors. -/
def parseInstr (mnemonic : List Char) (ops : List (List Char)) : Option Instr :=
  if mnemonic = ['N', 'O', 'P'] then (if ops.isEmpty then some .nop else none)
  else if mnemonic = ['S', 'T', 'E', 'P'] then (if ops.isEmpty then some .step else none)
  else if mnemonic = ['R', 'E', 'A', 'D'] then (oneOperand parseNumber ops).map .read
  else if mnemonic = ['F', 'L', 'I', 'P'] then (oneOperand parseNumber ops).map .flip
  else if mnemonic = ['R', 'D', 'B', 'L', 'K'] then (oneOperand parseNumber ops).map .rdblk
  else if mnemonic = ['R', 'D', 'R', 'E', 'G'] then (oneOperand parseRegister ops).map .rdreg
  else if mnemonic = ['C', 'F', 'L', 'I', 'P'] then
    match twoOperands ops with
    | some (i, 0) => some (.cflip i false)
    | some (i, 1) => some (.cflip i true)
    | _ => none
  else if mnemonic = ['W', 'R', 'B', 'L', 'K'] then
    match twoOperands ops with
    | some (b, v) => if v < 18446744073709551616 then some (.wrblk b (BitVec.ofNat 64 v)) else none
    | none => none
  else none

/-- One line of assembly that holds a command; a comment begins with `;` (R92). None is an assembly error, and a line
without a command spells none. -/
def assembleLine (line : List Char) : Option Command :=
  let text := trimBlanks (line.takeWhile (· != ';'))
  let mnemonic := text.takeWhile (fun c => !isBlank c)
  let rest := trimBlanks (text.dropWhile (fun c => !isBlank c))
  let ops := if rest.isEmpty then [] else (splitCommas rest).map trimBlanks
  (parseInstr mnemonic ops).bind assemble

end Sys2Proof.Machine
end

