-- ==== Sys2Proof/Safety.lean ====
section
/-! DEFINITION. The terms claims are stated in: the invariant of the state, runs of a host program
(70_reset_and_hazards.md rule R220), and the host-side pseudo-instructions (30_encoding.md rule R93). -/

namespace Sys2Proof.Machine

/-- CAUSE and FINFO agree with FAULT: both clear while no fault is recorded, and otherwise a cause that some command
raises, with the nonzero word that raised it (10_state.md rules R36 and R37, 60_exceptions.md rule R186). -/
def State.faultRecordOk (s : State) : Bool :=
  if s.fault then s.cause != .none && s.cause != .ruleMalformed && s.finfo != 0
  else s.cause == .none && s.finfo == 0

/-- What holds between two commands in every state a run reaches: the storage is in its canonical form, the fault
record agrees with FAULT, and SEQ is IDLE (10_state.md rules R32, R36, R37 and R43). -/
def State.inv (s : State) : Bool :=
  Memory.wf s.cfg s.mem && s.faultRecordOk && decide (s.seq.phase = .idle)

/-- A safe run has recorded no fault: "a claim about a host program takes FAULT = 0 at the end as a premise"
(60_exceptions.md rule R191). -/
def State.unfaulted (s : State) : Bool := !s.fault

/-- The bit at a position is a padding bit: it lies in the storage and holds no cell (00_scope.md glossary, R32). -/
def isPadding (p : Params) (q : Pos) : Bool := decide (q.blk < nb p ∧ q.bit < p.w) && !isCell p q

/-- The next value of cell j under the closed form: the boundary cells keep theirs, an interior cell takes RULE's
entry for its neighbourhood (41_step.md rules R131 and R141). -/
def State.nextCell (s : State) (j : Nat) : Bool :=
  if j = 0 ∨ s.cfg.n ≤ j + 1 then s.cell j
  else ruleNext s.cfg (s.cell (j - 1)) (s.cell j) (s.cell (j + 1))

/-- The range check a command fails in a configuration, by the cause it raises (60_exceptions.md rules R183 to R185). -/
def rangeCause (p : Params) : Instr → Option Cause
  | .nop => none
  | .read i => if i < p.n then none else some .indexRange
  | .flip i => if i < p.n then none else some .indexRange
  | .cflip i _ => if i < p.n then none else some .indexRange
  | .step => none
  | .rdblk b => if b < nb p then none else some .blockRange
  | .wrblk b _ => if b < nb p then none else some .blockRange
  | .rdreg r => if r ≤ 4 then none else some .regRange

/-- The commands that may write the storage (20_memory.md rule R65). -/
def writesStorage : Instr → Bool
  | .flip _ => true
  | .cflip _ _ => true
  | .step => true
  | .wrblk _ _ => true
  | _ => false

/-- A command the fault state executes: NOP, and RDREG of a register that exists (60_exceptions.md rule R190). -/
def allowedInFault : Instr → Bool
  | .nop => true
  | .rdreg r => regLegal r
  | _ => false

/-- `rst` stays low in the next step. -/
def State.rstLow (s : State) : Bool :=
  match s.rstIn with
  | [] => true
  | .low :: _ => true
  | _ => false

/-- k steps, one after another, up to the first that answers no next state. -/
def runSteps : Nat → State → Result
  | 0, s => .next s
  | k + 1, s =>
    match step s with
    | .next t => runSteps k t
    | .fault f => .fault f
    | .refused r => .refused r

/-- The run of a host program: its commands in order, each waiting for the response of the one before; the responses,
oldest first, and the final state. None is a command without a response (R220). -/
def runProgram : List Command → State → Option (List Response × State)
  | [], s => some ([], s)
  | c :: cs, s =>
    match step (offer s c) with
    | .next t =>
      match t.rsp with
      | some r => (runProgram cs t).map (fun o => (r :: o.1, o.2))
      | none => none
    | _ => none

/-- The host-side pseudo-instructions (30_encoding.md rule R93). -/
inductive Pseudo where
  /-- Cell i becomes v. -/
  | setv (i : Nat) (v : Bool)
  /-- Cell i becomes 1. -/
  | set (i : Nat)
  /-- Cell i becomes 0. -/
  | clr (i : Nat)
  /-- Advance k generations. -/
  | gen (k : Nat)
  /-- Every cell becomes 0. -/
  | clear
  /-- Read the whole row. -/
  | dump
deriving DecidableEq, Repr

/-- The run of a sequence of instructions, assembled first: none, and no command offered, where one of them produces no
word (30_encoding.md rule R92). -/
def runAssembled (is : List Instr) (s : State) : Option (List Response × State) :=
  (assembleAll is).bind (fun cs => runProgram cs s)

/-- `SETV i, v`: `READ i`, then `CFLIP i, (rsp(1)[0] XOR v)` (R93); none where `READ i` has no word (R92). -/
def runSetv (i : Nat) (v : Bool) (s : State) : Option (List Response × State) :=
  match runAssembled [.read i] s with
  | some ([r], t) =>
    (runAssembled [.cflip i (r.data.getLsbD 0 ^^ v)] t).map (fun o => (r :: o.1, o.2))
  | _ => none

/-- The run of a pseudo-instruction's expansion (R93); none where an operand does not fit, an assembly error (R92). -/
def runPseudo : Pseudo → State → Option (List Response × State)
  | .setv i v, s => runSetv i v s
  | .set i, s => runSetv i true s
  | .clr i, s => runSetv i false s
  | .gen k, s => runAssembled (List.replicate k .step) s
  | .clear, s => runAssembled ((List.range (nb s.cfg)).map (fun b => .wrblk b 0)) s
  | .dump, s => runAssembled ((List.range (nb s.cfg)).map (fun b => .rdblk b)) s

end Sys2Proof.Machine
end

