-- ==== Sys2Proof/Certificates/Slice0/Obligations.lean ====
section
/-! DEFINITION. The statements about the machine. Each docstring names the rule of spec/ that it formalises. -/

open Sys2Proof Sys2Proof.Machine

/-! Encoding (30_encoding.md). -/

/-- Decoding the word and data of a command whose operands fit gives the command back (R83 to R86, R92). That WRBLK's
data is an operand of the command is the model's (notes/assumptions/14.md). -/
def Obligations.DecodeOfEncode : Prop :=
  ∀ i : Instr, i.wellFormed = true → decode (encodeWord i) (encodeDin i) = .ok i

/-- A word that decodes is the one word of its command, whose operands fit, and only WRBLK takes data from `din`
(R84, R86, R90, R91). -/
def Obligations.EncodeOfDecode : Prop :=
  ∀ (w : CmdWord) (din : Word) (i : Instr), decode w din = .ok i →
    encodeWord i = w ∧ i.wellFormed = true ∧ encodeDin i = (if opField w = 6 then din else 0)

/-- R86: a word spells the command of the row it matches, at most one row matches, and a word no row matches raises
ILLEGAL_CMD; 0x00000000 is NOP, 0x40000000 is STEP, 0x08000000 is illegal. -/
def Obligations.WordSpellsTheRowItMatches : Prop :=
  (∀ (w : CmdWord) (din : Word) (r : OpcodeRow), r ∈ opcodeTable → r.accepts w = true →
    ∃ i, decode w din = .ok i ∧ i.row = r) ∧
  (∀ (w : CmdWord) (r r' : OpcodeRow), r ∈ opcodeTable → r' ∈ opcodeTable → r.accepts w = true →
    r'.accepts w = true → r = r') ∧
  (∀ (w : CmdWord) (din : Word) (s : State), s.fault = false → (∀ r ∈ opcodeTable, r.accepts w = false) →
    executeCommand ⟨w, din⟩ s =
      .next { s with fault := true, cause := .illegalCmd, finfo := w, rsp := some ⟨true, 0⟩ }) ∧
  (∀ din : Word, decode 0x00000000 din = .ok .nop ∧ decode 0x40000000 din = .ok .step ∧
    ∀ r ∈ opcodeTable, r.accepts 0x08000000 = false)

/-- R87 and R88: a reserved opcode and a must-be-zero field that is not zero raise ILLEGAL_CMD. -/
def Obligations.ReservedAndMalformedWordsRaiseIllegalCmd : Prop :=
  ∀ (w : CmdWord) (din : Word) (s : State), s.fault = false →
    (w.getLsbD 31 = true ∨ w.extractLsb' 24 3 ≠ 0 ∨ (w.getLsbD 27 = true ∧ w.extractLsb' 28 4 ≠ 3) ∨
      ((w.extractLsb' 28 4 = 0 ∨ w.extractLsb' 28 4 = 4) ∧ w.extractLsb' 0 24 ≠ 0)) →
    executeCommand ⟨w, din⟩ s =
      .next { s with fault := true, cause := .illegalCmd, finfo := w, rsp := some ⟨true, 0⟩ }

/-- Words of the spec's decode vectors (95_test_vectors.md section 2), one for each command. -/
def Obligations.SpecWordsDecode : Prop :=
  ∀ din : Word, decode 0x10000016 din = .ok (.read 22) ∧ decode 0x20000017 din = .ok (.flip 23) ∧
    decode 0x30000016 din = .ok (.cflip 22 false) ∧ decode 0x38000016 din = .ok (.cflip 22 true) ∧
    decode 0x40000000 din = .ok .step ∧ decode 0x50000002 din = .ok (.rdblk 2) ∧
    decode 0x60000002 din = .ok (.wrblk 2 din) ∧ decode 0x70000004 din = .ok (.rdreg 4) ∧
    decode 0x00000000 din = .ok .nop

/-- R91: WRBLK stores `din[W-1:0]`, first cell of the block in bit W-1, with the padding bits forced to 0, and ignores
`din[63:W]`; every other command ignores `din`. -/
def Obligations.DinIsTheBlockWordAndElseIgnored : Prop :=
  (∀ (w : CmdWord) (d d' : Word), opField w ≠ 6 → decode w d = decode w d') ∧
  (∀ (s : State) (b : Nat) (d d' : Word), (∀ k, k < s.cfg.w → d.getLsbD k = d'.getLsbD k) →
    exec (.wrblk b d) s = exec (.wrblk b d') s) ∧
  (∀ (s : State) (b : Nat) (d : Word), s.fault = false → b < nb s.cfg →
    ∃ t, exec (.wrblk b d) s = .next t ∧
      (∀ j, j < s.cfg.w → b * s.cfg.w + j < s.cfg.n →
        t.cell (b * s.cfg.w + j) = d.getLsbD (s.cfg.w - 1 - j)) ∧
      ∀ k, isPadding s.cfg ⟨b, k⟩ = true → (t.blk b).getLsbD k = false)

/-- R92: a command whose operand does not fit its field produces no word, and any other assembles to the word and
data that spell it. -/
def Obligations.AssemblyRefusesOperandsThatDoNotFit : Prop :=
  ∀ i : Instr, (i.wellFormed = false → assemble i = none) ∧
    (i.wellFormed = true → ∃ c, assemble i = some c ∧ decode c.cmd c.din = .ok i)

/-! The command interface (30_encoding.md, 20_memory.md section 6, 70_reset_and_hazards.md). -/

/-- A step with `rst` low accepts the oldest offered command and, where its word decodes, is `exec` of that command in
the state in which it was accepted (R66, R70, R80, R81). That one step is one transaction, and that the host's
commands and `rst` are lists in State, and that accepting a command empties the response port, are the model's
(notes/assumptions/6.md, 7.md, 8.md, 12.md). -/
def Obligations.StepRunsTheDecodedCommand : Prop :=
  ∀ (s : State) (c : Command) (rest : List Command) (i : Instr), s.cmds = c :: rest → decode c.cmd c.din = .ok i →
    (s.rstIn = [] → step s = exec i { s with cmds := rest, rst := false, rsp := none }) ∧
    (∀ later, s.rstIn = .low :: later →
      step s = exec i { s with cmds := rest, rstIn := later, rst := false, rsp := none })

/-- The command placed by `withFetchWord` is the one the very next step executes (notes/assumptions/7.md); accepting it
empties the response port (notes/assumptions/12.md). -/
def Obligations.PlacedWordRunsNext : Prop :=
  ∀ (s : State) (nbits w : Nat) (i : Instr), decodeTableWord nbits w = some i →
    step (s.withFetchWord nbits w) = exec i { s with rst := false, rsp := none }

/-- A step with `rst` low accepts and removes exactly the oldest offered command; with `rst` high none is accepted and
all stay offered (R70, R80, R211). The lists are the model's (notes/assumptions/7.md, 8.md). -/
def Obligations.CommandsAreAcceptedInOrder : Prop :=
  ∀ s t : State, step s = .next t →
    t.rstIn = s.rstIn.tail ∧ (s.rstLow = true → t.cmds = s.cmds.tail) ∧
      (∀ later, s.rstIn = .high :: later → t.cmds = s.cmds)

/-- Every step answers a next state, and a step that accepts a command ends with its response (R82, R219). That the
response comes within the step is the model's (notes/assumptions/6.md, 16.md). -/
def Obligations.EveryStepAnswers : Prop :=
  ∀ s : State, ∃ t, step s = .next t ∧
    (s.rstLow = true → s.cmds ≠ [] → ∃ r : Response, t.rsp = some r ∧ (r.err = true → r.data = 0))

/-- A host program gets one response for each of its commands (R82, R220). -/
def Obligations.ProgramGetsOneResponsePerCommand : Prop :=
  ∀ (prog : List Command) (s : State), ∃ rs t, runProgram prog s = some (rs, t) ∧ rs.length = prog.length

/-- With no command offered the block keeps its state for any number of steps, and stays ready (R200). That it is ready
whenever `rst` is low, and that an idle step empties the response port, presented for one transfer (R81), are the
model's (notes/assumptions/6.md, 12.md). -/
def Obligations.IdleBlockKeepsItsState : Prop :=
  ∀ (k : Nat) (s : State), s.cmds = [] → s.rstIn = [] → 0 < k →
    ∃ t, runSteps k s = .next t ∧ t = { s with rst := false, rsp := none } ∧ t.cmdReady = true

/-- While `rst` is high every block reads INIT cut to its cells, STATUS and FINFO are clear, SEQ is IDLE, no command is
ready to be accepted and no response is pending, whatever the state was; the parameters stay (R210, R211). One level
of `rst` a step is the model's (notes/assumptions/8.md). -/
def Obligations.ResetRestoresTheResetState : Prop :=
  ∀ (s : State) (later : List RstEvent), s.rstIn = .high :: later →
    ∃ t, step s = .next t ∧ t.cfg = s.cfg ∧
      (∀ b k, (t.blk b).getLsbD k = (isCell s.cfg ⟨b, k⟩ && (s.cfg.init.getD b 0).getLsbD k)) ∧
      t.status = 0#16 ++ (s.cfg.rule ++ 0#8) ∧ t.finfo = 0 ∧ t.seq.phase = .idle ∧
      t.faultO = false ∧ t.cmdReady = false ∧ t.rspValid = false

/-- `rst` asserted while a command is outstanding abandons it: no response, and the state of R211 (R212). How the host
asks for it is the model's (notes/assumptions/8.md). -/
def Obligations.ResetDuringACommandAbandonsIt : Prop :=
  ∀ (s : State) (later : List RstEvent) (c : Command) (rest : List Command),
    s.rstIn = .during :: later → s.cmds = c :: rest →
    ∃ t, step s = .next t ∧ t.cmds = rest ∧ t.rsp = none ∧ (∀ b, t.blk b = (State.resetFor s.cfg).blk b) ∧
      t.status = (State.resetFor s.cfg).status ∧ t.finfo = 0 ∧ t.seq.phase = .idle ∧ t.cfg = s.cfg ∧
      t.cmdReady = false ∧ t.faultO = false

/-- The state after reset meets the invariant, in every configuration, and every block reads INIT cut to its cells. -/
def Obligations.ResetStateMeetsTheInvariant : Prop :=
  ∀ p : Params, (State.resetFor p).inv = true ∧
    ∀ b k, ((State.resetFor p).blk b).getLsbD k = (isCell p ⟨b, k⟩ && (p.init.getD b 0).getLsbD k)

/-- Every step keeps the invariant: the storage's canonical form with its padding bits 0, CAUSE and FINFO in agreement
with FAULT, SEQ IDLE between commands (R32, R36, R37, R43, R114, R186). -/
def Obligations.StepKeepsTheInvariant : Prop :=
  ∀ s t : State, s.inv = true → step s = .next t → t.inv = true

/-- No step changes N, W, RULE or INIT; STATUS[15:8] reads RULE (R34, R215). -/
def Obligations.NoStepChangesTheConfiguration : Prop :=
  ∀ s t : State, step s = .next t → t.cfg = s.cfg ∧ t.status.extractLsb' 8 8 = s.cfg.rule

/-! The cell and block commands (40_bitfield.md). -/

/-- R101: READ's word; it answers the cell and changes nothing; an index of N or more is INDEX_RANGE. -/
def Obligations.ReadAnswersTheCell : Prop :=
  ∀ (s : State) (i : Nat), s.fault = false →
    (i < 16777216 → assemble (.read i) = some ⟨0x10000000 ||| BitVec.ofNat 32 i, 0⟩ ∧
      ∀ din, decode (0x10000000 ||| BitVec.ofNat 32 i) din = .ok (.read i)) ∧
    (i < s.cfg.n →
      exec (.read i) s = .next { s with rsp := some ⟨false, if s.cell i then 1 else 0⟩ }) ∧
    (s.cfg.n ≤ i → i < 16777216 →
      exec (.read i) s = .next { s with
        fault := true, cause := .indexRange, finfo := 0x10000000 ||| BitVec.ofNat 32 i, rsp := some ⟨true, 0⟩ })

/-- R104: FLIP's word; it toggles its cell and no other bit of the storage, twice restores it; an index of N or more is
INDEX_RANGE with the storage unchanged. -/
def Obligations.FlipTogglesOneCell : Prop :=
  ∀ (s : State) (i : Nat), s.fault = false →
    (i < 16777216 → assemble (.flip i) = some ⟨0x20000000 ||| BitVec.ofNat 32 i, 0⟩ ∧
      ∀ din, decode (0x20000000 ||| BitVec.ofNat 32 i) din = .ok (.flip i)) ∧
    (i < s.cfg.n → ∃ t, exec (.flip i) s = .next t ∧ t = { s with mem := t.mem, rsp := some ⟨false, 0⟩ } ∧
      t.cell i = !s.cell i ∧ (∀ q, q ≠ pos s.cfg i → t.bitAt q = s.bitAt q) ∧
      ∃ u, exec (.flip i) t = .next u ∧ ∀ q, u.bitAt q = s.bitAt q) ∧
    (s.cfg.n ≤ i → i < 16777216 →
      exec (.flip i) s = .next { s with
        fault := true, cause := .indexRange, finfo := 0x20000000 ||| BitVec.ofNat 32 i, rsp := some ⟨true, 0⟩ })

/-- R107: CFLIP's words; with c = 1 it is FLIP, with c = 0 it changes nothing, and it checks the range for either. -/
def Obligations.CflipTogglesIfTold : Prop :=
  ∀ (s : State) (i : Nat), s.fault = false →
    (i < 16777216 → assemble (.cflip i false) = some ⟨0x30000000 ||| BitVec.ofNat 32 i, 0⟩ ∧
      ∀ din, decode (0x30000000 ||| BitVec.ofNat 32 i) din = .ok (.cflip i false)) ∧
    (i < 16777216 → assemble (.cflip i true) = some ⟨0x38000000 ||| BitVec.ofNat 32 i, 0⟩ ∧
      ∀ din, decode (0x38000000 ||| BitVec.ofNat 32 i) din = .ok (.cflip i true)) ∧
    (i < s.cfg.n →
      exec (.cflip i false) s = .next { s with rsp := some ⟨false, 0⟩ } ∧
      (∃ t, exec (.cflip i true) s = .next t ∧ t = { s with mem := t.mem, rsp := some ⟨false, 0⟩ } ∧
        t.cell i = !s.cell i ∧ ∀ q, q ≠ pos s.cfg i → t.bitAt q = s.bitAt q) ∧
      exec (.cflip i true) s = exec (.flip i) s) ∧
    (∀ c : Bool, s.cfg.n ≤ i → i < 16777216 →
      exec (.cflip i c) s = .next { s with
        fault := true, cause := .indexRange,
        finfo := 0x30000000 ||| (if c then 0x8000000 else 0) ||| BitVec.ofNat 32 i, rsp := some ⟨true, 0⟩ })

/-- R108: with `c = Cell(i) XOR v`, CFLIP i, c makes cell i hold v. -/
def Obligations.CflipSetsAKnownValue : Prop :=
  ∀ (s : State) (i : Nat) (v : Bool), s.fault = false → i < s.cfg.n →
    ∃ t, exec (.cflip i (s.cell i ^^ v)) s = .next t ∧ t.cell i = v ∧
      ∀ q, q ≠ pos s.cfg i → t.bitAt q = s.bitAt q

/-- SETV: READ i, then CFLIP with the answered bit XOR v, makes cell i hold v (R93, R108); SET and CLR are SETV with 1
and 0; an index that does not fit ARG is an assembly error, and nothing runs (R92). -/
def Obligations.SetvSetsTheCell : Prop :=
  (∀ (s : State) (i : Nat) (v : Bool), s.fault = false → i < s.cfg.n →
    ∃ t, runPseudo (.setv i v) s = some ([⟨false, if s.cell i then 1 else 0⟩, ⟨false, 0⟩], t) ∧ t.cell i = v ∧
      ∀ j, j < s.cfg.n → j ≠ i → t.cell j = s.cell j) ∧
  (∀ (s : State) (i : Nat), runPseudo (.set i) s = runPseudo (.setv i true) s ∧
    runPseudo (.clr i) s = runPseudo (.setv i false) s) ∧
  (∀ (s : State) (i : Nat) (v : Bool), 16777216 ≤ i → runPseudo (.setv i v) s = none)

/-- R110: RDBLK's word; it answers the block word and changes nothing; bit W-1-j is cell b*W + j, every bit that holds no
cell is 0; a block of NB or more is BLOCK_RANGE. -/
def Obligations.RdblkAnswersTheBlock : Prop :=
  ∀ (s : State) (b : Nat), s.fault = false →
    (b < 16777216 → assemble (.rdblk b) = some ⟨0x50000000 ||| BitVec.ofNat 32 b, 0⟩ ∧
      ∀ din, decode (0x50000000 ||| BitVec.ofNat 32 b) din = .ok (.rdblk b)) ∧
    (b < nb s.cfg → exec (.rdblk b) s = .next { s with rsp := some ⟨false, s.blk b⟩ } ∧
      (∀ j, j < s.cfg.w → (s.blk b).getLsbD (s.cfg.w - 1 - j) = s.cell (b * s.cfg.w + j)) ∧
      (s.inv = true → ∀ k, isCell s.cfg ⟨b, k⟩ = false → (s.blk b).getLsbD k = false)) ∧
    (nb s.cfg ≤ b → b < 16777216 →
      exec (.rdblk b) s = .next { s with
        fault := true, cause := .blockRange, finfo := 0x50000000 ||| BitVec.ofNat 32 b, rsp := some ⟨true, 0⟩ })

/-- R113: WRBLK's word; it makes the block hold the bits of `din` at its cells and 0 elsewhere, and changes no other
block; writing the word just read changes nothing; a block of NB or more is BLOCK_RANGE. -/
def Obligations.WrblkStoresTheBlock : Prop :=
  ∀ (s : State) (b : Nat) (d : Word), s.fault = false →
    (b < 16777216 → assemble (.wrblk b d) = some ⟨0x60000000 ||| BitVec.ofNat 32 b, d⟩ ∧
      decode (0x60000000 ||| BitVec.ofNat 32 b) d = .ok (.wrblk b d)) ∧
    (b < nb s.cfg →
      (∃ t, exec (.wrblk b d) s = .next t ∧ t = { s with mem := t.mem, rsp := some ⟨false, 0⟩ } ∧
        (∀ k, (t.blk b).getLsbD k = (isCell s.cfg ⟨b, k⟩ && d.getLsbD k)) ∧ ∀ c, c ≠ b → t.blk c = s.blk c) ∧
      (s.inv = true → exec (.wrblk b (s.blk b)) s = .next { s with rsp := some ⟨false, 0⟩ })) ∧
    (nb s.cfg ≤ b → b < 16777216 →
      exec (.wrblk b d) s = .next { s with
        fault := true, cause := .blockRange, finfo := 0x60000000 ||| BitVec.ofNat 32 b, rsp := some ⟨true, 0⟩ })

/-- A read answers what the latest earlier write left: FLIP then READ, and WRBLK then RDBLK (R70, R102). -/
def Obligations.ReadSeesTheLatestWrite : Prop :=
  (∀ (s : State) (i : Nat), s.fault = false → i < s.cfg.n →
    ∃ t u, exec (.flip i) s = .next t ∧ exec (.read i) t = .next u ∧
      u.rsp = some ⟨false, if s.cell i then 0 else 1⟩) ∧
  (∀ (s : State) (b : Nat) (d : Word), s.fault = false → b < nb s.cfg →
    ∃ t u, exec (.wrblk b d) s = .next t ∧ exec (.rdblk b) t = .next u ∧
      u.rsp = some ⟨false, d &&& cellMask s.cfg b⟩)

/-- Only FLIP, CFLIP, WRBLK and STEP write the storage: any other command leaves all of it as it was (R65, R67). -/
def Obligations.OnlyWritingCommandsChangeTheStorage : Prop :=
  ∀ (i : Instr) (s t : State), writesStorage i = false → exec i s = .next t →
    t.mem = s.mem ∧ ∀ q, t.bitAt q = s.bitAt q

/-- R114: reset loads the padding bits of the last block as 0; between two commands they are 0, and after any step
they still are; a STEP writes none of them. -/
def Obligations.PaddingBitsAreZero : Prop :=
  (∀ (p : Params) (k : Nat), k < padBits p → ((State.resetFor p).blk (nb p - 1)).getLsbD k = false) ∧
  (∀ s : State, s.inv = true → ∀ k, k < padBits s.cfg →
    (s.blk (nb s.cfg - 1)).getLsbD k = false ∧
      ∀ t, step s = .next t → (t.blk (nb s.cfg - 1)).getLsbD k = false) ∧
  (∀ s t : State, exec .step s = .next t → ∀ q, isPadding s.cfg q = true → t.bitAt q = s.bitAt q)

/-! Where cells lie (00_scope.md, 10_state.md, 20_memory.md). -/

/-- R8: NB = ceil(N / W) blocks hold the N cells; the low NB*W - N bits of the last one, fewer than W, and no other bits
are padding. -/
def Obligations.BlocksHoldTheCells : Prop :=
  ∀ p : Params, p.n ≤ nb p * p.w ∧ nb p * p.w - p.n < p.w ∧ nb p = (p.n + p.w - 1) / p.w ∧
    ∀ q : Pos, isPadding p q = true ↔ q.blk = nb p - 1 ∧ q.bit < nb p * p.w - p.n

/-- R61: every cell has one place in the storage, which is not padding, and every bit of the storage that is not one of
the low NB*W - N bits of the last block is one cell's. -/
def Obligations.CellsAndBitsCorrespond : Prop :=
  ∀ p : Params,
    (∀ i, i < p.n → (pos p i).blk < nb p ∧ (pos p i).bit < p.w ∧
      ¬((pos p i).blk = nb p - 1 ∧ (pos p i).bit < padBits p)) ∧
    (∀ i j, i < p.n → j < p.n → pos p i = pos p j → i = j) ∧
    (∀ q : Pos, q.blk < nb p → q.bit < p.w → ¬(q.blk = nb p - 1 ∧ q.bit < padBits p) →
      ∃ i, i < p.n ∧ pos p i = q)

/-- R139: the window position of the next index is the successor of the position. -/
def Obligations.WindowPositionsAdvanceByOneBit : Prop :=
  ∀ (p : Params) (i : Nat),
    pos p i = ⟨i / p.w, p.w - 1 - i % p.w⟩ ∧
    pos p (i + 1) =
      (if (pos p i).bit = 0 then ⟨(pos p i).blk + 1, p.w - 1⟩ else ⟨(pos p i).blk, (pos p i).bit - 1⟩)

/-! STEP (41_step.md). -/

/-- R141: STEP computes the next generation: cells 0 and N-1 keep their values, every other cell is RULE's entry for
its old neighbourhood; every bit that holds no cell, STATUS and FINFO are unchanged. -/
def Obligations.StepComputesTheNextGeneration : Prop :=
  ∀ s : State, s.fault = false →
    ∃ t, exec .step s = .next t ∧ t.cell 0 = s.cell 0 ∧ t.cell (s.cfg.n - 1) = s.cell (s.cfg.n - 1) ∧
      (∀ j, 1 ≤ j → j ≤ s.cfg.n - 2 →
        t.cell j =
          s.cfg.rule.getLsbD ((s.cell (j - 1)).toNat * 4 + (s.cell j).toNat * 2 + (s.cell (j + 1)).toNat)) ∧
      (∀ q, isCell s.cfg q = false → t.bitAt q = s.bitAt q) ∧ t.status = s.status ∧ t.finfo = s.finfo

/-- STEP answers (0, 0) in every state that records no fault, with SEQ IDLE again, and writes nothing but the storage
and its own hidden registers (R130, R138, R150). What those registers hold then is free (notes/assumptions/10.md). -/
def Obligations.StepNeverFaultsAndHasThisFrame : Prop :=
  ∀ s : State, s.fault = false →
    ∃ t, exec .step s = .next t ∧ t.rsp = some ⟨false, 0⟩ ∧ t.seq.phase = .idle ∧
      t = { s with mem := t.mem, seq := t.seq, rsp := t.rsp, fresh := t.fresh }

/-- After k of its N - 2 iterations the window is on cells k, k+1, k+2, every cell from k on still holds its old value,
every cell before k holds its next one, and PREV is the next value of cell k (R137, R140, R142). -/
def Obligations.WritesTrailReadsByOneCell : Prop :=
  ∀ (s : State) (k : Nat), k ≤ s.cfg.n - 2 →
    ∃ a b, seqStart s = .ok a ∧ seqLoop k a = .ok b ∧ b.seq.regs.i = k + 3 ∧
      b.seq.regs.wl = pos s.cfg k ∧ b.seq.regs.wc = pos s.cfg (k + 1) ∧ b.seq.regs.wr = pos s.cfg (k + 2) ∧
      (∀ j, k ≤ j → b.cell j = s.cell j) ∧ (∀ j, j < k → b.cell j = s.nextCell j) ∧
      b.seq.regs.prev = s.nextCell k ∧ (0 < k → b.seq.regs.curr = s.nextCell k)

/-- The loop `while I <= N` runs N - 2 times, whatever larger number of iterations is allowed (R137). -/
def Obligations.LoopRunsNMinusTwoTimes : Prop :=
  ∀ (s a : State) (fuel : Nat), seqStart s = .ok a → s.cfg.n - 2 ≤ fuel →
    ∃ b, seqLoop (s.cfg.n - 2) a = .ok b ∧ seqLoop fuel a = .ok b ∧ b.seq.regs.i = s.cfg.n + 1 ∧
      b.seq.regs.wl = pos s.cfg (s.cfg.n - 2)

/-- R146: with RULE[0] = 0 the all-dead row stays all dead. -/
def Obligations.AllDeadRowStaysDead : Prop :=
  ∀ s : State, s.fault = false → s.cfg.rule.getLsbD 0 = false → (∀ j, j < s.cfg.n → s.cell j = false) →
    ∃ t, exec .step s = .next t ∧ ∀ j, j < s.cfg.n → t.cell j = false

/-- R148: with N = 3, cells (l, c, r) become (l, RULE[l*4 + c*2 + r], r). -/
def Obligations.ThreeCellRowGivesTheRuleEntry : Prop :=
  ∀ s : State, s.fault = false → s.cfg.n = 3 →
    ∃ t, exec .step s = .next t ∧ t.cell 0 = s.cell 0 ∧
      t.cell 1 =
        s.cfg.rule.getLsbD ((s.cell 0).toNat * 4 + (s.cell 1).toNat * 2 + (s.cell 2).toNat) ∧
      t.cell 2 = s.cell 2

/-- R147: over any sequence of commands without FLIP, CFLIP or WRBLK, and without a reset, cells 0 and N-1 keep their
values. -/
def Obligations.BoundaryCellsKeepTheirValues : Prop :=
  ∀ (prog : List Command) (s : State),
    (∀ c ∈ prog, ∀ i, decode c.cmd c.din = .ok i → i = .step ∨ writesStorage i = false) →
    ∃ rs t, runProgram prog s = some (rs, t) ∧ t.cell 0 = s.cell 0 ∧ t.cell (s.cfg.n - 1) = s.cell (s.cfg.n - 1)

/-- STEP's result depends on the cells and RULE alone: not on the block width, and on nothing else in
State (R149). -/
def Obligations.StepDependsOnCellsAndRuleAlone : Prop :=
  ∀ s s' : State, s.fault = false → s'.fault = false → s.cfg.n = s'.cfg.n → s.cfg.rule = s'.cfg.rule →
    (∀ j, j < s.cfg.n → s.cell j = s'.cell j) →
    ∃ t t', exec .step s = .next t ∧ exec .step s' = .next t' ∧ ∀ j, j < s.cfg.n → t.cell j = t'.cell j

/-- R143: the shift-register realisation, which reads each cell once, leaves in every block what the sequencer leaves. -/
def Obligations.ShiftRegisterPassEqualsTheSequencer : Prop :=
  ∀ s : State, ∃ t, runSequencer s = .ok t ∧ ∀ b, (shiftRun s).blk b = t.blk b

/-! NOP and RDREG (42_control.md), STATUS (10_state.md). -/

/-- R170: NOP is exactly the word 0, answers (0, 0) in every state and changes nothing; any other word with OP = 0
spells no command. -/
def Obligations.NopDoesNothing : Prop :=
  (∀ s : State, exec .nop s = .next { s with rsp := some ⟨false, 0⟩ }) ∧
  (∀ (w : CmdWord) (din : Word), decode w din = .ok .nop ↔ w = 0) ∧ assemble .nop = some ⟨0, 0⟩ ∧
  (∀ (w : CmdWord) (din : Word), opField w = 0 → w ≠ 0 → ∃ e, decode w din = .error e)

/-- R172: RDREG's word; it answers the register and changes nothing, in every state; a number above 4 is REG_RANGE; and
while no fault is recorded STATUS is RULE << 8 and FINFO is 0. -/
def Obligations.RdregAnswersTheRegister : Prop :=
  (∀ r, r < 16777216 → assemble (.rdreg r) = some ⟨0x70000000 ||| BitVec.ofNat 32 r, 0⟩ ∧
    ∀ din, decode (0x70000000 ||| BitVec.ofNat 32 r) din = .ok (.rdreg r)) ∧
  (∀ s : State,
    exec (.rdreg 0) s = .next { s with rsp := some ⟨false, s.status.setWidth 64⟩ } ∧
    exec (.rdreg 1) s = .next { s with rsp := some ⟨false, s.finfo.setWidth 64⟩ } ∧
    exec (.rdreg 2) s = .next { s with rsp := some ⟨false, BitVec.ofNat 64 s.cfg.n⟩ } ∧
    exec (.rdreg 3) s = .next { s with rsp := some ⟨false, BitVec.ofNat 64 s.cfg.w⟩ } ∧
    exec (.rdreg 4) s = .next { s with rsp := some ⟨false, BitVec.ofNat 64 (nb s.cfg)⟩ }) ∧
  (∀ (s : State) (r : Nat), 4 < r → r < 16777216 → s.fault = false →
    exec (.rdreg r) s = .next { s with
      fault := true, cause := .regRange, finfo := 0x70000000 ||| BitVec.ofNat 32 r, rsp := some ⟨true, 0⟩ }) ∧
  (∀ s : State, s.inv = true → s.fault = false →
    s.status = s.cfg.rule.setWidth 32 <<< 8 ∧ s.finfo = 0)

/-- The fields of STATUS and the codes of CAUSE; between two commands CAUSE is 0 exactly while FAULT is 0; `fault_o` is
STATUS.FAULT (R36, R181, R192). -/
def Obligations.StatusHasItsFields : Prop :=
  ∀ s : State,
    s.status.getLsbD 0 = s.fault ∧ s.faultO = s.fault ∧ s.status.extractLsb' 1 3 = 0 ∧
    s.status.extractLsb' 4 4 =
      (match s.cause with
       | .none => 0 | .illegalCmd => 1 | .indexRange => 2 | .blockRange => 3 | .regRange => 4 | .ruleMalformed => 5) ∧
    s.status.extractLsb' 8 8 = s.cfg.rule ∧ s.status.extractLsb' 16 16 = 0 ∧
    (s.inv = true → (s.fault = true ↔ s.status.extractLsb' 4 4 ≠ 0))

/-! Faults (60_exceptions.md). -/

/-- R189: the order of checks of an accepted command: the fault state's refusal, then decode, then the operand's range,
then the effect with its response. -/
def Obligations.ChecksAreInOrder : Prop :=
  ∀ (s : State) (w : CmdWord) (d : Word),
    (s.fault = true → (∀ i, decode w d = .ok i → allowedInFault i = false) →
      executeCommand ⟨w, d⟩ s = .next { s with rsp := some ⟨true, 0⟩ }) ∧
    (s.fault = false → (∀ i, decode w d ≠ .ok i) →
      executeCommand ⟨w, d⟩ s =
        .next { s with fault := true, cause := .illegalCmd, finfo := w, rsp := some ⟨true, 0⟩ }) ∧
    (∀ i c, s.fault = false → decode w d = .ok i → rangeCause s.cfg i = some c →
      executeCommand ⟨w, d⟩ s = .next { s with fault := true, cause := c, finfo := w, rsp := some ⟨true, 0⟩ }) ∧
    (∀ i, (s.fault = false ∧ rangeCause s.cfg i = none) ∨ allowedInFault i = true → decode w d = .ok i →
      executeCommand ⟨w, d⟩ s = exec i s ∧
        ∃ t, exec i s = .next t ∧ t.fault = s.fault ∧ ∃ x, t.rsp = some ⟨false, x⟩)

/-- R190: while FAULT = 1 only NOP and RDREG of registers 0 to 4 execute; every other word answers (1, 0) and has no
effect. -/
def Obligations.FaultStateRefusesTheRest : Prop :=
  ∀ (s : State) (w : CmdWord) (d : Word), s.fault = true →
    (w = 0 → executeCommand ⟨w, d⟩ s = .next { s with rsp := some ⟨false, 0⟩ }) ∧
    (∀ r, r ≤ 4 → w = 0x70000000 ||| BitVec.ofNat 32 r →
      executeCommand ⟨w, d⟩ s = .next { s with rsp := some ⟨false, (readReg s r).setWidth 64⟩ }) ∧
    (w ≠ 0 → (∀ r, r ≤ 4 → w ≠ 0x70000000 ||| BitVec.ofNat 32 r) →
      executeCommand ⟨w, d⟩ s = .next { s with rsp := some ⟨true, 0⟩ })

/-- Nothing but reset clears FAULT: any other step keeps FAULT, CAUSE, FINFO and the storage of the fault state, and a
step under reset clears the record (R191, R192). -/
def Obligations.OnlyResetClearsAFault : Prop :=
  ∀ s t : State, s.fault = true → step s = .next t →
    (s.rstLow = true → t.fault = true ∧ t.cause = s.cause ∧ t.finfo = s.finfo ∧ t.mem = s.mem) ∧
    (s.rstLow = false → t.fault = false ∧ t.cause = .none ∧ t.finfo = 0)

/-- R187: a command that faults changes nothing but STATUS.FAULT, STATUS.CAUSE and FINFO, which holds its word, and
answers (1, 0): no cell, no padding bit, no other register. -/
def Obligations.FaultsArePrecise : Prop :=
  ∀ (s t : State) (w : CmdWord) (d : Word), s.fault = false → executeCommand ⟨w, d⟩ s = .next t → t.fault = true →
    t = { s with fault := true, cause := t.cause, finfo := w, rsp := some ⟨true, 0⟩ } ∧ t.cause ≠ .none

/-- Without a reset, STATUS and FINFO change only where a fault is recorded (R36, R37, R173). -/
def Obligations.OnlyAFaultChangesTheRecord : Prop :=
  ∀ s t : State, s.rstLow = true → step s = .next t →
    (t.status = s.status ∧ t.finfo = s.finfo) ∨
      (s.fault = false ∧ t.fault = true ∧ t.rsp = some ⟨true, 0⟩)
end

