-- ==== Sys2Proof/Laws/Decode.lean ====
section
/-! SUPPORT. The fields of a packed command word, and what the decoder can answer. -/

namespace Sys2Proof

theorem opField_packWord (op : BitVec 4) (c : Bool) (arg : Nat) : opField (packWord op c arg) = op.toNat := by
  have : (packWord op c arg).extractLsb' 28 4 = op := by
    apply BitVec.eq_of_getLsbD_eq
    intro k hk
    simp only [packWord, BitVec.getLsbD_extractLsb', BitVec.getLsbD_append]
    simp [hk]
  rw [opField, this]

theorem condField_packWord (op : BitVec 4) (c : Bool) (arg : Nat) : condField (packWord op c arg) = c := by
  simp only [condField, packWord, BitVec.getLsbD_append]
  simp

theorem rsvField_packWord (op : BitVec 4) (c : Bool) (arg : Nat) : rsvField (packWord op c arg) = 0 := by
  have : (packWord op c arg).extractLsb' 24 3 = 0#3 := by
    apply BitVec.eq_of_getLsbD_eq
    intro k hk
    simp only [packWord, BitVec.getLsbD_extractLsb', BitVec.getLsbD_append]
    simp [show 24 + k < 28 by omega, show 24 + k < 27 by omega]
  rw [rsvField, this]; rfl

theorem argField_packWord (op : BitVec 4) (c : Bool) (arg : Nat) :
    argField (packWord op c arg) = arg % 16777216 := by
  have : (packWord op c arg).extractLsb' 0 24 = BitVec.ofNat 24 arg := by
    apply BitVec.eq_of_getLsbD_eq
    intro k hk
    simp only [packWord, BitVec.getLsbD_extractLsb', BitVec.getLsbD_append]
    simp [hk, show k < 28 by omega, show k < 27 by omega]
  rw [argField, this]; rfl

theorem argField_lt (w : CmdWord) : argField w < 16777216 := (w.extractLsb' 0 24).isLt

/-- A word is what its fields pack to, once RSV is 0. -/
theorem packWord_fields (w : CmdWord) (h : rsvField w = 0) :
    packWord (w.extractLsb' 28 4) (condField w) (argField w) = w := by
  have hr : w.extractLsb' 24 3 = 0#3 := BitVec.eq_of_toNat_eq h
  apply BitVec.eq_of_getLsbD_eq
  intro k hk
  have hr' : ∀ j, j < 3 → w.getLsbD (24 + j) = false := by
    intro j hj
    have := congrArg (fun v => BitVec.getLsbD v j) hr
    simpa [hj] using this
  simp only [packWord, condField, argField, BitVec.ofNat_toNat, BitVec.getLsbD_append, BitVec.getLsbD_ofBool,
    BitVec.getLsbD_extractLsb', BitVec.getLsbD_setWidth]
  by_cases h1 : k < 24
  · simp [h1, show k < 28 by omega, show k < 27 by omega]
  · by_cases h2 : k < 27
    · have := hr' (k - 24) (by omega)
      rw [show 24 + (k - 24) = k by omega] at this
      simp [h1, h2, show k < 28 by omega, this]
    · by_cases h3 : k < 28
      · have : k = 27 := by omega
        subst this; simp
      · simp [h3, show k - 28 < 4 by omega, show 28 + (k - 28) = k by omega]

/-- A packed word as rule R92 writes it: `(op << 28) OR (c << 27) OR arg`. -/
theorem packWord_eq_or (op : BitVec 4) (c : Bool) (i : Nat) (hi : i < 16777216) :
    packWord op c i = (op.setWidth 32 <<< 28) ||| (if c then 0x8000000 else 0) ||| BitVec.ofNat 32 i := by
  have h : BitVec.ofNat 32 i = (BitVec.ofNat 24 i).setWidth 32 := by
    apply BitVec.eq_of_toNat_eq; simp; omega
  rw [h, packWord]
  generalize BitVec.ofNat 24 i = x
  have hc : (if c then (0x8000000 : BitVec 32) else 0) = (BitVec.ofBool c).setWidth 32 <<< 27 := by cases c <;> rfl
  rw [hc]
  apply BitVec.eq_of_getLsbD_eq
  intro k hk
  simp only [BitVec.getLsbD_append, BitVec.getLsbD_or, BitVec.getLsbD_shiftLeft, BitVec.getLsbD_setWidth, BitVec.getLsbD_ofBool, hk, decide_true, Bool.true_and]
  by_cases h1 : k < 24
  · simp [h1, show k < 27 by omega, show k < 28 by omega]
  · have hx : x.getLsbD k = false := BitVec.getLsbD_of_ge _ _ (by omega)
    by_cases h2 : k < 27
    · simp [h2, h1, show k < 28 by omega, hx]
    · by_cases h3 : k < 28
      · have : k = 27 := by omega
        subst this; simp
      · simp [h3, h2, hx, show ¬ k - 27 = 0 by omega, show k - 28 < 32 by omega]

/-- Everything the decoder can answer. -/
theorem decode_ok_cases {w : CmdWord} {din : Word} {i : Instr} (h : decode w din = .ok i) :
    rsvField w = 0 ∧
      ((opField w = 0 ∧ condField w = false ∧ argField w = 0 ∧ i = .nop) ∨
       (opField w = 1 ∧ condField w = false ∧ i = .read (argField w)) ∨
       (opField w = 2 ∧ condField w = false ∧ i = .flip (argField w)) ∨
       (opField w = 3 ∧ i = .cflip (argField w) (condField w)) ∨
       (opField w = 4 ∧ condField w = false ∧ argField w = 0 ∧ i = .step) ∨
       (opField w = 5 ∧ condField w = false ∧ i = .rdblk (argField w)) ∨
       (opField w = 6 ∧ condField w = false ∧ i = .wrblk (argField w) din) ∨
       (opField w = 7 ∧ condField w = false ∧ i = .rdreg (argField w))) := by
  unfold decode at h
  split at h
  · next hr =>
    refine ⟨hr, ?_⟩
    split at h <;> (try simp only [decodePlain, decodeIndexed] at h) <;> (try split at h) <;>
      (try split at h) <;> simp_all
  · simp at h

end Sys2Proof
end

