-- ==== Sys2Proof/Laws/Geometry.lean ====
section
/-! SUPPORT. Where cells, blocks and padding bits lie: the bounds of a configuration, positions, masks. -/

namespace Sys2Proof.Machine

theorem three_le_n (p : Params) : 3 ≤ p.n := by simp [Params.n]

theorem n_le (p : Params) : p.n ≤ 16777216 := by
  have := p.cellsLess3.isLt
  simp only [Params.n]; omega

theorem w_pos (p : Params) : 0 < p.w := by simp [Params.w]

theorem w_le (p : Params) : p.w ≤ 64 := by
  have := p.widthLess1.isLt
  simp only [Params.w]; omega

theorem n_le_nb_mul_w (p : Params) : p.n ≤ nb p * p.w := by
  have hw := w_pos p
  have h1 := Nat.div_add_mod (p.n + p.w - 1) p.w
  have h2 := Nat.mod_lt (p.n + p.w - 1) hw
  rw [Nat.mul_comm] at h1
  simp only [nb]; omega

theorem nb_mul_w_lt (p : Params) : nb p * p.w < p.n + p.w := by
  have hw := w_pos p
  have hn := three_le_n p
  have h1 := Nat.div_mul_le_self (p.n + p.w - 1) p.w
  simp only [nb]; omega

theorem nb_pos (p : Params) : 0 < nb p := by
  have h := n_le_nb_mul_w p
  have hn := three_le_n p
  rcases Nat.eq_zero_or_pos (nb p) with h0 | h0
  · rw [h0] at h; omega
  · exact h0

/-- A block index below NB is one whose first cell exists. -/
theorem lt_nb_iff (p : Params) (b : Nat) : b < nb p ↔ b * p.w < p.n := by
  have h1 := n_le_nb_mul_w p
  have h2 := nb_mul_w_lt p
  constructor
  · intro h
    have : (b + 1) * p.w ≤ nb p * p.w := Nat.mul_le_mul_right _ h
    rw [Nat.add_mul] at this; omega
  · intro h
    by_contra hc
    have : nb p * p.w ≤ b * p.w := Nat.mul_le_mul_right _ (by omega)
    omega

@[simp] theorem pos_blk (p : Params) (i : Nat) : (pos p i).blk = i / p.w := rfl

@[simp] theorem pos_bit (p : Params) (i : Nat) : (pos p i).bit = p.w - 1 - i % p.w := rfl

theorem pos_bit_lt (p : Params) (i : Nat) : (pos p i).bit < p.w := by
  have := w_pos p
  simp only [pos_bit]; omega

/-- The index of a position is the index it came from. -/
theorem index_pos (p : Params) (i : Nat) : (pos p i).blk * p.w + (p.w - 1 - (pos p i).bit) = i := by
  have hw := w_pos p
  have h1 := Nat.mod_lt i hw
  have h2 := Nat.div_add_mod i p.w
  have h3 : p.w - 1 - (p.w - 1 - i % p.w) = i % p.w := by omega
  rw [pos_blk, pos_bit, h3, Nat.mul_comm]; exact h2

theorem pos_injective (p : Params) {i j : Nat} (h : pos p i = pos p j) : i = j := by
  rw [← index_pos p i, ← index_pos p j, h]

theorem pos_inj (p : Params) (i j : Nat) : pos p i = pos p j ↔ i = j :=
  ⟨pos_injective p, fun h => h ▸ rfl⟩

/-- A position within the block width is the position of its index. -/
theorem pos_index (p : Params) (q : Pos) (h : q.bit < p.w) :
    pos p (q.blk * p.w + (p.w - 1 - q.bit)) = q := by
  have hw := w_pos p
  have hlt : p.w - 1 - q.bit < p.w := by omega
  have h1 : (q.blk * p.w + (p.w - 1 - q.bit)) / p.w = q.blk := by
    rw [Nat.mul_comm, Nat.mul_add_div hw, Nat.div_eq_of_lt hlt, Nat.add_zero]
  have h2 : (q.blk * p.w + (p.w - 1 - q.bit)) % p.w = p.w - 1 - q.bit := by
    rw [Nat.mul_comm, Nat.mul_add_mod, Nat.mod_eq_of_lt hlt]
  have h3 : p.w - 1 - (p.w - 1 - q.bit) = q.bit := by omega
  simp only [pos, h1, h2, h3]

theorem isCell_pos (p : Params) (i : Nat) : isCell p (pos p i) = decide (i < p.n) := by
  simp only [isCell, index_pos, pos_bit_lt, true_and]

theorem isCell_iff (p : Params) (q : Pos) : isCell p q = true ↔ ∃ i, i < p.n ∧ q = pos p i := by
  constructor
  · intro h
    simp only [isCell, decide_eq_true_eq] at h
    exact ⟨_, h.2, (pos_index p q h.1).symm⟩
  · rintro ⟨i, hi, rfl⟩
    simp [isCell_pos, hi]

theorem getLsbD_lowOnes (p : Params) (k : Nat) :
    (BitVec.allOnes 64 >>> (64 - p.w)).getLsbD k = decide (k < p.w) := by
  have := w_le p
  have := w_pos p
  simp only [BitVec.getLsbD_ushiftRight, BitVec.getLsbD_allOnes, decide_eq_decide]
  omega

/-- The mask of a block has exactly the bits that hold cells. -/
theorem getLsbD_cellMask (p : Params) (b k : Nat) :
    (cellMask p b).getLsbD k = isCell p { blk := b, bit := k } := by
  have hw := w_pos p
  have hw64 := w_le p
  have h1 := n_le_nb_mul_w p
  have h2 := nb_mul_w_lt p
  simp only [cellMask, isCell]
  split
  · next hb =>
    rw [getLsbD_lowOnes, decide_eq_decide]
    have h3 : (b + 2) * p.w ≤ nb p * p.w := Nat.mul_le_mul_right _ hb
    rw [Nat.add_mul] at h3
    omega
  · split
    · next hb =>
      have h3 : nb p * p.w = b * p.w + p.w := by rw [← hb, Nat.add_mul, Nat.one_mul]
      rw [BitVec.getLsbD_shiftLeft, BitVec.getLsbD_ushiftRight, getLsbD_lowOnes, Bool.eq_iff_iff]
      have hpad : padBits p = nb p * p.w - p.n := rfl
      by_cases hk : k < padBits p <;> simp [hk] <;> omega
    · next hb' hb =>
      have h3 : nb p * p.w ≤ b * p.w := Nat.mul_le_mul_right _ (by omega)
      simp only [BitVec.ofNat_eq_ofNat, BitVec.getLsbD_zero]
      symm; simp only [decide_eq_false_iff_not]; omega

theorem isCell_blk_lt (p : Params) (q : Pos) (h : isCell p q = true) : q.blk < nb p := by
  simp only [isCell, decide_eq_true_eq] at h
  rw [lt_nb_iff]; omega

theorem cell_bit_lt_64 (p : Params) (i : Nat) : (pos p i).bit < 64 := by
  have := pos_bit_lt p i
  have := w_le p
  omega

theorem pos_of_block (p : Params) (b j : Nat) (hj : j < p.w) : pos p (b * p.w + j) = ⟨b, p.w - 1 - j⟩ := by
  have := pos_index p ⟨b, p.w - 1 - j⟩ (by simp only; omega)
  simp only at this
  rwa [show p.w - 1 - (p.w - 1 - j) = j by omega] at this

theorem nb_le_n (p : Params) : nb p ≤ p.n := by
  have h1 := nb_mul_w_lt p
  have hw := w_pos p
  by_contra h
  have h2 : (p.n + 1) * p.w ≤ nb p * p.w := Nat.mul_le_mul_right _ (by omega)
  have h3 : p.n ≤ p.n * p.w := Nat.le_mul_of_pos_right _ hw
  rw [Nat.add_mul] at h2
  omega

/-- A bit of the storage holds a cell unless it is one of the low `NB*W - N` bits of the last block (10_state.md rule
R32). -/
theorem isCell_iff_not_low (p : Params) (b k : Nat) (hb : b < nb p) (hk : k < p.w) :
    isCell p ⟨b, k⟩ = true ↔ ¬(b = nb p - 1 ∧ k < padBits p) := by
  have h1 := n_le_nb_mul_w p
  have h2 := nb_mul_w_lt p
  have hpad : padBits p = nb p * p.w - p.n := rfl
  simp only [isCell, decide_eq_true_eq]
  by_cases h : b = nb p - 1
  · have h3 : nb p * p.w = b * p.w + p.w := by
      rw [show nb p = b + 1 by omega, Nat.add_mul, Nat.one_mul]
    omega
  · have h3 : (b + 2) * p.w ≤ nb p * p.w := Nat.mul_le_mul_right _ (by omega)
    rw [Nat.add_mul] at h3
    omega

end Sys2Proof.Machine
end

