-- ==== Sys2Proof/Laws/State.lean ====
section
/-! SUPPORT. One lemma per field per update of State, so that no proof unfolds a record update, and the same for what
is read from the storage. -/

namespace Sys2Proof.Machine

/-! `respond` -/

@[simp] theorem respond_cfg (s : State) (e : Bool) (d : Word) : (respond s e d).cfg = s.cfg := rfl

@[simp] theorem respond_mem (s : State) (e : Bool) (d : Word) : (respond s e d).mem = s.mem := rfl

@[simp] theorem respond_fault (s : State) (e : Bool) (d : Word) : (respond s e d).fault = s.fault := rfl

@[simp] theorem respond_cause (s : State) (e : Bool) (d : Word) : (respond s e d).cause = s.cause := rfl

@[simp] theorem respond_finfo (s : State) (e : Bool) (d : Word) : (respond s e d).finfo = s.finfo := rfl

@[simp] theorem respond_seq (s : State) (e : Bool) (d : Word) : (respond s e d).seq = s.seq := rfl

@[simp] theorem respond_rst (s : State) (e : Bool) (d : Word) : (respond s e d).rst = s.rst := rfl

@[simp] theorem respond_rsp (s : State) (e : Bool) (d : Word) : (respond s e d).rsp = some { err := e, data := d } := rfl

@[simp] theorem respond_cmds (s : State) (e : Bool) (d : Word) : (respond s e d).cmds = s.cmds := rfl

@[simp] theorem respond_rstIn (s : State) (e : Bool) (d : Word) : (respond s e d).rstIn = s.rstIn := rfl

@[simp] theorem respond_fresh (s : State) (e : Bool) (d : Word) : (respond s e d).fresh = s.fresh := rfl

@[simp] theorem respond_blk (s : State) (e : Bool) (d : Word) (k : Nat) : (respond s e d).blk k = s.blk k := by simp [State.blk]

@[simp] theorem respond_bitAt (s : State) (e : Bool) (d : Word) (k : Pos) : (respond s e d).bitAt k = s.bitAt k := by simp [State.bitAt]

@[simp] theorem respond_cell (s : State) (e : Bool) (d : Word) (k : Nat) : (respond s e d).cell k = s.cell k := by simp [State.cell]


/-! `refuse` -/

@[simp] theorem refuse_cfg (s : State) : (refuse s).cfg = s.cfg := rfl

@[simp] theorem refuse_mem (s : State) : (refuse s).mem = s.mem := rfl

@[simp] theorem refuse_fault (s : State) : (refuse s).fault = s.fault := rfl

@[simp] theorem refuse_cause (s : State) : (refuse s).cause = s.cause := rfl

@[simp] theorem refuse_finfo (s : State) : (refuse s).finfo = s.finfo := rfl

@[simp] theorem refuse_seq (s : State) : (refuse s).seq = s.seq := rfl

@[simp] theorem refuse_rst (s : State) : (refuse s).rst = s.rst := rfl

@[simp] theorem refuse_rsp (s : State) : (refuse s).rsp = some { err := true, data := 0 } := rfl

@[simp] theorem refuse_cmds (s : State) : (refuse s).cmds = s.cmds := rfl

@[simp] theorem refuse_rstIn (s : State) : (refuse s).rstIn = s.rstIn := rfl

@[simp] theorem refuse_fresh (s : State) : (refuse s).fresh = s.fresh := rfl

@[simp] theorem refuse_blk (s : State) (k : Nat) : (refuse s).blk k = s.blk k := by simp [State.blk]

@[simp] theorem refuse_bitAt (s : State) (k : Pos) : (refuse s).bitAt k = s.bitAt k := by simp [State.bitAt]

@[simp] theorem refuse_cell (s : State) (k : Nat) : (refuse s).cell k = s.cell k := by simp [State.cell]


/-! `memWrite` -/

@[simp] theorem memWrite_cfg (s : State) (b : Nat) (v : Word) : (memWrite s b v).cfg = s.cfg := rfl

@[simp] theorem memWrite_mem (s : State) (b : Nat) (v : Word) : (memWrite s b v).mem = Memory.store s.cfg s.mem b (v &&& cellMask s.cfg b) := rfl

@[simp] theorem memWrite_fault (s : State) (b : Nat) (v : Word) : (memWrite s b v).fault = s.fault := rfl

@[simp] theorem memWrite_cause (s : State) (b : Nat) (v : Word) : (memWrite s b v).cause = s.cause := rfl

@[simp] theorem memWrite_finfo (s : State) (b : Nat) (v : Word) : (memWrite s b v).finfo = s.finfo := rfl

@[simp] theorem memWrite_seq (s : State) (b : Nat) (v : Word) : (memWrite s b v).seq = s.seq := rfl

@[simp] theorem memWrite_rst (s : State) (b : Nat) (v : Word) : (memWrite s b v).rst = s.rst := rfl

@[simp] theorem memWrite_rsp (s : State) (b : Nat) (v : Word) : (memWrite s b v).rsp = s.rsp := rfl

@[simp] theorem memWrite_cmds (s : State) (b : Nat) (v : Word) : (memWrite s b v).cmds = s.cmds := rfl

@[simp] theorem memWrite_rstIn (s : State) (b : Nat) (v : Word) : (memWrite s b v).rstIn = s.rstIn := rfl

@[simp] theorem memWrite_fresh (s : State) (b : Nat) (v : Word) : (memWrite s b v).fresh = s.fresh := rfl


/-! `flipAt` -/

@[simp] theorem flipAt_cfg (s : State) (q : Pos) : (flipAt s q).cfg = s.cfg := rfl

@[simp] theorem flipAt_mem (s : State) (q : Pos) : (flipAt s q).mem = Memory.store s.cfg s.mem q.blk (s.blk q.blk ^^^ BitVec.twoPow 64 q.bit) := rfl

@[simp] theorem flipAt_fault (s : State) (q : Pos) : (flipAt s q).fault = s.fault := rfl

@[simp] theorem flipAt_cause (s : State) (q : Pos) : (flipAt s q).cause = s.cause := rfl

@[simp] theorem flipAt_finfo (s : State) (q : Pos) : (flipAt s q).finfo = s.finfo := rfl

@[simp] theorem flipAt_seq (s : State) (q : Pos) : (flipAt s q).seq = s.seq := rfl

@[simp] theorem flipAt_rst (s : State) (q : Pos) : (flipAt s q).rst = s.rst := rfl

@[simp] theorem flipAt_rsp (s : State) (q : Pos) : (flipAt s q).rsp = s.rsp := rfl

@[simp] theorem flipAt_cmds (s : State) (q : Pos) : (flipAt s q).cmds = s.cmds := rfl

@[simp] theorem flipAt_rstIn (s : State) (q : Pos) : (flipAt s q).rstIn = s.rstIn := rfl

@[simp] theorem flipAt_fresh (s : State) (q : Pos) : (flipAt s q).fresh = s.fresh := rfl


/-! `condFlipAt` -/

@[simp] theorem condFlipAt_cfg (s : State) (q : Pos) (c : Bool) : (condFlipAt s q c).cfg = s.cfg := by cases c <;> rfl

@[simp] theorem condFlipAt_fault (s : State) (q : Pos) (c : Bool) : (condFlipAt s q c).fault = s.fault := by cases c <;> rfl

@[simp] theorem condFlipAt_cause (s : State) (q : Pos) (c : Bool) : (condFlipAt s q c).cause = s.cause := by cases c <;> rfl

@[simp] theorem condFlipAt_finfo (s : State) (q : Pos) (c : Bool) : (condFlipAt s q c).finfo = s.finfo := by cases c <;> rfl

@[simp] theorem condFlipAt_seq (s : State) (q : Pos) (c : Bool) : (condFlipAt s q c).seq = s.seq := by cases c <;> rfl

@[simp] theorem condFlipAt_rst (s : State) (q : Pos) (c : Bool) : (condFlipAt s q c).rst = s.rst := by cases c <;> rfl

@[simp] theorem condFlipAt_rsp (s : State) (q : Pos) (c : Bool) : (condFlipAt s q c).rsp = s.rsp := by cases c <;> rfl

@[simp] theorem condFlipAt_cmds (s : State) (q : Pos) (c : Bool) : (condFlipAt s q c).cmds = s.cmds := by cases c <;> rfl

@[simp] theorem condFlipAt_rstIn (s : State) (q : Pos) (c : Bool) : (condFlipAt s q c).rstIn = s.rstIn := by cases c <;> rfl

@[simp] theorem condFlipAt_fresh (s : State) (q : Pos) (c : Bool) : (condFlipAt s q c).fresh = s.fresh := by cases c <;> rfl


/-! `raiseFault` -/

@[simp] theorem raiseFault_cfg (s : State) (c : Cause) (w : CmdWord) : (raiseFault s c w).cfg = s.cfg := by simp only [raiseFault]; split <;> simp_all [respond]

@[simp] theorem raiseFault_mem (s : State) (c : Cause) (w : CmdWord) : (raiseFault s c w).mem = s.mem := by simp only [raiseFault]; split <;> simp_all [respond]

@[simp] theorem raiseFault_fault (s : State) (c : Cause) (w : CmdWord) : (raiseFault s c w).fault = true := by simp only [raiseFault]; split <;> simp_all [respond]

@[simp] theorem raiseFault_cause (s : State) (c : Cause) (w : CmdWord) : (raiseFault s c w).cause = if s.fault then s.cause else c := by simp only [raiseFault]; split <;> simp_all [respond]

@[simp] theorem raiseFault_finfo (s : State) (c : Cause) (w : CmdWord) : (raiseFault s c w).finfo = if s.fault then s.finfo else w := by simp only [raiseFault]; split <;> simp_all [respond]

@[simp] theorem raiseFault_seq (s : State) (c : Cause) (w : CmdWord) : (raiseFault s c w).seq = s.seq := by simp only [raiseFault]; split <;> simp_all [respond]

@[simp] theorem raiseFault_rst (s : State) (c : Cause) (w : CmdWord) : (raiseFault s c w).rst = s.rst := by simp only [raiseFault]; split <;> simp_all [respond]

@[simp] theorem raiseFault_rsp (s : State) (c : Cause) (w : CmdWord) : (raiseFault s c w).rsp = some { err := true, data := 0 } := by simp only [raiseFault]; split <;> simp_all [respond]

@[simp] theorem raiseFault_cmds (s : State) (c : Cause) (w : CmdWord) : (raiseFault s c w).cmds = s.cmds := by simp only [raiseFault]; split <;> simp_all [respond]

@[simp] theorem raiseFault_rstIn (s : State) (c : Cause) (w : CmdWord) : (raiseFault s c w).rstIn = s.rstIn := by simp only [raiseFault]; split <;> simp_all [respond]

@[simp] theorem raiseFault_fresh (s : State) (c : Cause) (w : CmdWord) : (raiseFault s c w).fresh = s.fresh := by simp only [raiseFault]; split <;> simp_all [respond]

@[simp] theorem raiseFault_blk (s : State) (c : Cause) (w : CmdWord) (k : Nat) : (raiseFault s c w).blk k = s.blk k := by simp [State.blk]

@[simp] theorem raiseFault_bitAt (s : State) (c : Cause) (w : CmdWord) (k : Pos) : (raiseFault s c w).bitAt k = s.bitAt k := by simp [State.bitAt]

@[simp] theorem raiseFault_cell (s : State) (c : Cause) (w : CmdWord) (k : Nat) : (raiseFault s c w).cell k = s.cell k := by simp [State.cell]


/-! `violation` -/

@[simp] theorem violation_cfg (s : State) (c : Cause) (w : CmdWord) : (violation s c w).cfg = s.cfg := by simp only [violation]; split <;> simp_all

@[simp] theorem violation_mem (s : State) (c : Cause) (w : CmdWord) : (violation s c w).mem = s.mem := by simp only [violation]; split <;> simp_all

@[simp] theorem violation_fault (s : State) (c : Cause) (w : CmdWord) : (violation s c w).fault = true := by simp only [violation]; split <;> simp_all

@[simp] theorem violation_cause (s : State) (c : Cause) (w : CmdWord) : (violation s c w).cause = if s.fault then s.cause else c := by simp only [violation]; split <;> simp_all

@[simp] theorem violation_finfo (s : State) (c : Cause) (w : CmdWord) : (violation s c w).finfo = if s.fault then s.finfo else w := by simp only [violation]; split <;> simp_all

@[simp] theorem violation_seq (s : State) (c : Cause) (w : CmdWord) : (violation s c w).seq = s.seq := by simp only [violation]; split <;> simp_all

@[simp] theorem violation_rst (s : State) (c : Cause) (w : CmdWord) : (violation s c w).rst = s.rst := by simp only [violation]; split <;> simp_all

@[simp] theorem violation_rsp (s : State) (c : Cause) (w : CmdWord) : (violation s c w).rsp = some { err := true, data := 0 } := by simp only [violation]; split <;> simp_all

@[simp] theorem violation_cmds (s : State) (c : Cause) (w : CmdWord) : (violation s c w).cmds = s.cmds := by simp only [violation]; split <;> simp_all

@[simp] theorem violation_rstIn (s : State) (c : Cause) (w : CmdWord) : (violation s c w).rstIn = s.rstIn := by simp only [violation]; split <;> simp_all

@[simp] theorem violation_fresh (s : State) (c : Cause) (w : CmdWord) : (violation s c w).fresh = s.fresh := by simp only [violation]; split <;> simp_all

@[simp] theorem violation_blk (s : State) (c : Cause) (w : CmdWord) (k : Nat) : (violation s c w).blk k = s.blk k := by simp [State.blk]

@[simp] theorem violation_bitAt (s : State) (c : Cause) (w : CmdWord) (k : Pos) : (violation s c w).bitAt k = s.bitAt k := by simp [State.bitAt]

@[simp] theorem violation_cell (s : State) (c : Cause) (w : CmdWord) (k : Nat) : (violation s c w).cell k = s.cell k := by simp [State.cell]


/-! `resetBlock` -/

@[simp] theorem resetBlock_cfg (s : State) : (resetBlock s).cfg = s.cfg := rfl

@[simp] theorem resetBlock_mem (s : State) : (resetBlock s).mem = [] := rfl

@[simp] theorem resetBlock_fault (s : State) : (resetBlock s).fault = false := rfl

@[simp] theorem resetBlock_cause (s : State) : (resetBlock s).cause = .none := rfl

@[simp] theorem resetBlock_finfo (s : State) : (resetBlock s).finfo = 0 := rfl

@[simp] theorem resetBlock_seq (s : State) : (resetBlock s).seq = Sequencer.reset := rfl

@[simp] theorem resetBlock_rst (s : State) : (resetBlock s).rst = true := rfl

@[simp] theorem resetBlock_rsp (s : State) : (resetBlock s).rsp = none := rfl

@[simp] theorem resetBlock_cmds (s : State) : (resetBlock s).cmds = s.cmds := rfl

@[simp] theorem resetBlock_rstIn (s : State) : (resetBlock s).rstIn = s.rstIn := rfl

@[simp] theorem resetBlock_fresh (s : State) : (resetBlock s).fresh = s.fresh := rfl

@[simp] theorem resetBlock_blk (s : State) (k : Nat) : (resetBlock s).blk k = initWord s.cfg k := rfl


/-! `setSeq` -/

@[simp] theorem setSeq_cfg (s : State) (ph : SeqPhase) (r : SeqRegs) : (setSeq s ph r).cfg = s.cfg := rfl

@[simp] theorem setSeq_mem (s : State) (ph : SeqPhase) (r : SeqRegs) : (setSeq s ph r).mem = s.mem := rfl

@[simp] theorem setSeq_fault (s : State) (ph : SeqPhase) (r : SeqRegs) : (setSeq s ph r).fault = s.fault := rfl

@[simp] theorem setSeq_cause (s : State) (ph : SeqPhase) (r : SeqRegs) : (setSeq s ph r).cause = s.cause := rfl

@[simp] theorem setSeq_finfo (s : State) (ph : SeqPhase) (r : SeqRegs) : (setSeq s ph r).finfo = s.finfo := rfl

@[simp] theorem setSeq_seq (s : State) (ph : SeqPhase) (r : SeqRegs) : (setSeq s ph r).seq = { phase := ph, regs := r } := rfl

@[simp] theorem setSeq_rst (s : State) (ph : SeqPhase) (r : SeqRegs) : (setSeq s ph r).rst = s.rst := rfl

@[simp] theorem setSeq_rsp (s : State) (ph : SeqPhase) (r : SeqRegs) : (setSeq s ph r).rsp = s.rsp := rfl

@[simp] theorem setSeq_cmds (s : State) (ph : SeqPhase) (r : SeqRegs) : (setSeq s ph r).cmds = s.cmds := rfl

@[simp] theorem setSeq_rstIn (s : State) (ph : SeqPhase) (r : SeqRegs) : (setSeq s ph r).rstIn = s.rstIn := rfl

@[simp] theorem setSeq_fresh (s : State) (ph : SeqPhase) (r : SeqRegs) : (setSeq s ph r).fresh = s.fresh := rfl

@[simp] theorem setSeq_blk (s : State) (ph : SeqPhase) (r : SeqRegs) (k : Nat) : (setSeq s ph r).blk k = s.blk k := by simp [State.blk]

@[simp] theorem setSeq_bitAt (s : State) (ph : SeqPhase) (r : SeqRegs) (k : Pos) : (setSeq s ph r).bitAt k = s.bitAt k := by simp [State.bitAt]

@[simp] theorem setSeq_cell (s : State) (ph : SeqPhase) (r : SeqRegs) (k : Nat) : (setSeq s ph r).cell k = s.cell k := by simp [State.cell]


/-! `seqEnd` -/

@[simp] theorem seqEnd_cfg (s : State) : (seqEnd s).cfg = s.cfg := rfl

@[simp] theorem seqEnd_mem (s : State) : (seqEnd s).mem = s.mem := rfl

@[simp] theorem seqEnd_fault (s : State) : (seqEnd s).fault = s.fault := rfl

@[simp] theorem seqEnd_cause (s : State) : (seqEnd s).cause = s.cause := rfl

@[simp] theorem seqEnd_finfo (s : State) : (seqEnd s).finfo = s.finfo := rfl

@[simp] theorem seqEnd_seq (s : State) : (seqEnd s).seq = { phase := .idle, regs := Config.freeSeqRegs s.fresh } := rfl

@[simp] theorem seqEnd_rst (s : State) : (seqEnd s).rst = s.rst := rfl

@[simp] theorem seqEnd_rsp (s : State) : (seqEnd s).rsp = s.rsp := rfl

@[simp] theorem seqEnd_cmds (s : State) : (seqEnd s).cmds = s.cmds := rfl

@[simp] theorem seqEnd_rstIn (s : State) : (seqEnd s).rstIn = s.rstIn := rfl

@[simp] theorem seqEnd_fresh (s : State) : (seqEnd s).fresh = s.fresh + 1 := rfl

@[simp] theorem seqEnd_blk (s : State) (k : Nat) : (seqEnd s).blk k = s.blk k := by simp [State.blk]

@[simp] theorem seqEnd_bitAt (s : State) (k : Pos) : (seqEnd s).bitAt k = s.bitAt k := by simp [State.bitAt]

@[simp] theorem seqEnd_cell (s : State) (k : Nat) : (seqEnd s).cell k = s.cell k := by simp [State.cell]


/-! `accepted` -/

@[simp] theorem accepted_cfg (s : State) (rest : List Command) : (accepted s rest).cfg = s.cfg := rfl

@[simp] theorem accepted_mem (s : State) (rest : List Command) : (accepted s rest).mem = s.mem := rfl

@[simp] theorem accepted_fault (s : State) (rest : List Command) : (accepted s rest).fault = s.fault := rfl

@[simp] theorem accepted_cause (s : State) (rest : List Command) : (accepted s rest).cause = s.cause := rfl

@[simp] theorem accepted_finfo (s : State) (rest : List Command) : (accepted s rest).finfo = s.finfo := rfl

@[simp] theorem accepted_seq (s : State) (rest : List Command) : (accepted s rest).seq = s.seq := rfl

@[simp] theorem accepted_rst (s : State) (rest : List Command) : (accepted s rest).rst = false := rfl

@[simp] theorem accepted_rsp (s : State) (rest : List Command) : (accepted s rest).rsp = none := rfl

@[simp] theorem accepted_cmds (s : State) (rest : List Command) : (accepted s rest).cmds = rest := rfl

@[simp] theorem accepted_rstIn (s : State) (rest : List Command) : (accepted s rest).rstIn = s.rstIn := rfl

@[simp] theorem accepted_fresh (s : State) (rest : List Command) : (accepted s rest).fresh = s.fresh := rfl

@[simp] theorem accepted_blk (s : State) (rest : List Command) (k : Nat) : (accepted s rest).blk k = s.blk k := by simp [State.blk]

@[simp] theorem accepted_bitAt (s : State) (rest : List Command) (k : Pos) : (accepted s rest).bitAt k = s.bitAt k := by simp [State.bitAt]

@[simp] theorem accepted_cell (s : State) (rest : List Command) (k : Nat) : (accepted s rest).cell k = s.cell k := by simp [State.cell]


/-! `offer` -/

@[simp] theorem offer_cfg (s : State) (c : Command) : (offer s c).cfg = s.cfg := rfl

@[simp] theorem offer_mem (s : State) (c : Command) : (offer s c).mem = s.mem := rfl

@[simp] theorem offer_fault (s : State) (c : Command) : (offer s c).fault = s.fault := rfl

@[simp] theorem offer_cause (s : State) (c : Command) : (offer s c).cause = s.cause := rfl

@[simp] theorem offer_finfo (s : State) (c : Command) : (offer s c).finfo = s.finfo := rfl

@[simp] theorem offer_seq (s : State) (c : Command) : (offer s c).seq = s.seq := rfl

@[simp] theorem offer_rst (s : State) (c : Command) : (offer s c).rst = s.rst := rfl

@[simp] theorem offer_rsp (s : State) (c : Command) : (offer s c).rsp = s.rsp := rfl

@[simp] theorem offer_cmds (s : State) (c : Command) : (offer s c).cmds = c :: s.cmds := rfl

@[simp] theorem offer_rstIn (s : State) (c : Command) : (offer s c).rstIn = .low :: s.rstIn := rfl

@[simp] theorem offer_fresh (s : State) (c : Command) : (offer s c).fresh = s.fresh := rfl

@[simp] theorem offer_blk (s : State) (c : Command) (k : Nat) : (offer s c).blk k = s.blk k := by simp [State.blk]

@[simp] theorem offer_bitAt (s : State) (c : Command) (k : Pos) : (offer s c).bitAt k = s.bitAt k := by simp [State.bitAt]

@[simp] theorem offer_cell (s : State) (c : Command) (k : Nat) : (offer s c).cell k = s.cell k := by simp [State.cell]

end Sys2Proof.Machine
end

