-- ==== Sys2Proof/Laws/Interface.lean ====
section
/-! SUPPORT. What one step of the block can do, said once; reset as the reset state of the configuration; assembled
sequences. -/

namespace Sys2Proof.Machine

/-- Reset leaves the reset state of the configuration, but for the level of `rst`, what the host will do next, and the
model's own counter. -/
theorem resetBlock_eq_resetFor (s : State) :
    resetBlock s =
      { State.resetFor s.cfg with rst := true, cmds := s.cmds, rstIn := s.rstIn, fresh := s.fresh } := rfl

/-- Everything a step can do: idle, execute the oldest offered command, or be under reset with or without a command
just accepted (60_exceptions.md rule R200, 30_encoding.md rule R81, 70_reset_and_hazards.md rules R210 and R212). -/
theorem step_cases (s : State) :
    (s.rstLow = true ∧ s.cmds = [] ∧ step s = .next { s with rstIn := s.rstIn.tail, rst := false, rsp := none }) ∨
    (s.rstLow = true ∧ ∃ c rest, s.cmds = c :: rest ∧
      step s = executeCommand c { s with rstIn := s.rstIn.tail, rst := false, rsp := none, cmds := rest }) ∨
    (s.rstLow = false ∧ (∃ l, s.rstIn = .high :: l) ∧ step s = .next (resetBlock { s with rstIn := s.rstIn.tail })) ∨
    (s.rstLow = false ∧ (∃ l, s.rstIn = .during :: l) ∧
      step s = .next (resetBlock { s with rstIn := s.rstIn.tail, cmds := s.cmds.tail })) := by
  obtain ⟨cfg, mem, fault, cause, finfo, seq, rst, rsp, cmds, rstIn, fresh⟩ := s
  cases rstIn with
  | nil => cases cmds with
    | nil => exact .inl ⟨rfl, rfl, rfl⟩
    | cons c rest => exact .inr (.inl ⟨rfl, c, rest, rfl, rfl⟩)
  | cons e l => cases e with
    | low => cases cmds with
      | nil => exact .inl ⟨rfl, rfl, rfl⟩
      | cons c rest => exact .inr (.inl ⟨rfl, c, rest, rfl, rfl⟩)
    | high => exact .inr (.inr (.inl ⟨rfl, ⟨l, rfl⟩, rfl⟩))
    | during => exact .inr (.inr (.inr ⟨rfl, ⟨l, rfl⟩, rfl⟩))

theorem assemble_wellFormed {i : Instr} (h : i.wellFormed = true) : assemble i = some (commandOf i) := by
  simp only [assemble, h, if_true]

theorem assemble_illFormed {i : Instr} (h : i.wellFormed = false) : assemble i = none := by
  simp [assemble, h]

/-- Running instructions whose operands fit is running their commands (30_encoding.md rule R92). -/
theorem runAssembled_wellFormed {is : List Instr} (h : ∀ i ∈ is, i.wellFormed = true) (s : State) :
    runAssembled is s = runProgram (is.map commandOf) s := by
  have key : assembleAll is = some (is.map commandOf) := by
    induction is with
    | nil => rfl
    | cons i is ih =>
      simp only [assembleAll, assemble_wellFormed (h i (by simp)), ih (fun j hj => h j (by simp [hj])), List.map_cons]
  simp only [runAssembled, key, Option.bind_some]

/-- A sequence that begins with an instruction without a word runs nothing (30_encoding.md rule R92). -/
theorem runAssembled_illFormed {i : Instr} (h : i.wellFormed = false) (is : List Instr) (s : State) :
    runAssembled (i :: is) s = none := by
  simp [runAssembled, assembleAll, assemble_illFormed h]

/-- A command offered by the host is the one the next step executes. -/
theorem step_offer (s : State) (c : Command) :
    step (offer s c) = executeCommand c { s with rst := false, rsp := none } := rfl

end Sys2Proof.Machine
end

