-- ==== Sys2Proof/Laws/Memory.lean ====
section
/-! SUPPORT. The storage: a read after a write, and the canonical form, which every storage operation keeps. -/

namespace Sys2Proof.Machine

theorem mem_erase {m : Memory} {b : Nat} {e : Nat × Word} : e ∈ Memory.erase m b ↔ e ∈ m ∧ e.1 ≠ b := by
  simp [Memory.erase]

theorem mem_insert {b : Nat} {v : Word} {m : Memory} {e : Nat × Word} :
    e ∈ Memory.insert b v m ↔ e = (b, v) ∨ e ∈ m := by
  induction m with
  | nil => simp [Memory.insert]
  | cons x m ih =>
    obtain ⟨k, y⟩ := x
    simp only [Memory.insert]
    split
    · simp
    · simp only [List.mem_cons, ih]; tauto

theorem lookup_entry (k : Nat) (y : Word) (m : Memory) (c : Nat) :
    List.lookup c ((k, y) :: m) = if c = k then some y else m.lookup c := by
  by_cases h : c = k
  · subst h; simp
  · have : (c == k) = false := by simpa using h
    simp [List.lookup_cons, h, this]

theorem lookup_erase (m : Memory) (b c : Nat) :
    (Memory.erase m b).lookup c = if c = b then none else m.lookup c := by
  induction m with
  | nil => simp [Memory.erase]
  | cons x m ih =>
    obtain ⟨k, y⟩ := x
    simp only [Memory.erase, List.filter_cons] at ih ⊢
    by_cases hk : k = b
    · subst hk
      by_cases hc : c = k
      · simp only [hc, if_true] at ih ⊢
        simpa using ih
      · simp [lookup_entry, ih, hc]
    · by_cases hc : c = k
      · subst hc; simp [hk]
      · simp [hk, hc, ih, lookup_entry]

theorem lookup_insert (b : Nat) (v : Word) (m : Memory) (c : Nat) (hb : ∀ e ∈ m, e.1 ≠ b) :
    (Memory.insert b v m).lookup c = if c = b then some v else m.lookup c := by
  induction m with
  | nil => simp [Memory.insert, lookup_entry]
  | cons x m ih =>
    obtain ⟨k, y⟩ := x
    have hk : k ≠ b := hb (k, y) (by simp)
    have ih := ih (fun e he => hb e (by simp [he]))
    simp only [Memory.insert]
    split
    · simp [lookup_entry]
    · by_cases hc : c = k
      · subst hc; simp [hk]
      · simp [lookup_entry, hc, ih]

/-- A block reads what was stored to it, and every other block as before, whatever the list was. -/
theorem read_store (p : Params) (m : Memory) (b c : Nat) (v : Word) :
    Memory.read p (Memory.store p m b v) c = if c = b then v else Memory.read p m c := by
  have hne : ∀ e ∈ Memory.erase m b, e.1 ≠ b := fun e he => (mem_erase.mp he).2
  simp only [Memory.read, Memory.store]
  split
  · next hv =>
    rw [lookup_erase]
    by_cases hc : c = b <;> simp [hc, hv]
  · rw [lookup_insert b v _ c hne, lookup_erase]
    by_cases hc : c = b <;> simp [hc]

theorem pairwise_erase {m : Memory} (b : Nat) (h : m.Pairwise (fun x y => x.1 < y.1)) :
    (Memory.erase m b).Pairwise (fun x y => x.1 < y.1) := h.filter _

theorem pairwise_insert {m : Memory} (b : Nat) (v : Word) (h : m.Pairwise (fun x y => x.1 < y.1))
    (hb : ∀ e ∈ m, e.1 ≠ b) : (Memory.insert b v m).Pairwise (fun x y => x.1 < y.1) := by
  induction m with
  | nil => simp [Memory.insert]
  | cons x m ih =>
    obtain ⟨k, y⟩ := x
    have hk : k ≠ b := hb (k, y) (by simp)
    have h' := List.pairwise_cons.mp h
    simp only [Memory.insert]
    split
    · next hlt =>
      refine List.pairwise_cons.mpr ⟨?_, h⟩
      intro e he
      rcases List.mem_cons.mp he with rfl | he
      · exact hlt
      · exact lt_trans hlt (h'.1 e he)
    · refine List.pairwise_cons.mpr ⟨?_, ih h'.2 (fun e he => hb e (by simp [he]))⟩
      intro e he
      rcases mem_insert.mp he with rfl | he
      · simp only; omega
      · exact h'.1 e he

theorem wf_iff (p : Params) (m : Memory) :
    Memory.wf p m = true ↔ m.Pairwise (fun x y => x.1 < y.1) ∧
      ∀ e ∈ m, e.2 ≠ initWord p e.1 ∧ e.2 &&& cellMask p e.1 = e.2 := by
  simp [Memory.wf, List.all_eq_true]

/-- A store of a word whose other bits are 0 keeps the canonical form. -/
theorem wf_store {p : Params} {m : Memory} (b : Nat) (v : Word) (h : Memory.wf p m = true)
    (hv : v &&& cellMask p b = v) : Memory.wf p (Memory.store p m b v) = true := by
  rw [wf_iff] at h ⊢
  simp only [Memory.store]
  split
  · exact ⟨pairwise_erase b h.1, fun e he => h.2 e (mem_erase.mp he).1⟩
  · next hne =>
    refine ⟨pairwise_insert b v (pairwise_erase b h.1) (fun e he => (mem_erase.mp he).2), ?_⟩
    intro e he
    rcases mem_insert.mp he with rfl | he
    · exact ⟨hne, hv⟩
    · exact h.2 e (mem_erase.mp he).1

theorem wf_nil (p : Params) : Memory.wf p [] = true := by simp [Memory.wf]

theorem initWord_and_cellMask (p : Params) (b : Nat) : initWord p b &&& cellMask p b = initWord p b := by
  simp [initWord, BitVec.and_assoc]

/-- In the canonical form a block word has no bit set that holds no cell (10_state.md rule R32). -/
theorem read_and_cellMask {p : Params} {m : Memory} (b : Nat) (h : Memory.wf p m = true) :
    Memory.read p m b &&& cellMask p b = Memory.read p m b := by
  rw [wf_iff] at h
  simp only [Memory.read]
  cases hl : m.lookup b with
  | none => simpa using initWord_and_cellMask p b
  | some v =>
    have : (b, v) ∈ m := by
      have := List.lookup_eq_some_iff.mp hl
      obtain ⟨l₁, l₂, rfl, -⟩ := this
      simp
    exact (h.2 _ this).2

theorem lookup_eq_some {m : Memory} (h : m.Pairwise (fun x y => x.1 < y.1)) (b : Nat) (v : Word) :
    m.lookup b = some v ↔ (b, v) ∈ m := by
  induction m with
  | nil => simp
  | cons x m ih =>
    obtain ⟨k, y⟩ := x
    have h' := List.pairwise_cons.mp h
    rw [lookup_entry, List.mem_cons]
    split
    · next hb =>
      subst hb
      have hn : ∀ u, (b, u) ∉ m := fun u hu => absurd (h'.1 _ hu) (lt_irrefl b)
      simp [hn, eq_comm]
    · next hb => simp [hb, ih h'.2]

/-- The canonical form is canonical: two storages in it that read alike are equal data. -/
theorem wf_ext {p : Params} {m m' : Memory} (h : Memory.wf p m = true) (h' : Memory.wf p m' = true)
    (hr : ∀ b, Memory.read p m b = Memory.read p m' b) : m = m' := by
  rw [wf_iff] at h h'
  have key : ∀ {a : Memory}, (a.Pairwise (fun x y => x.1 < y.1)) →
      (∀ e ∈ a, e.2 ≠ initWord p e.1 ∧ e.2 &&& cellMask p e.1 = e.2) →
      ∀ e : Nat × Word, e ∈ a ↔ Memory.read p a e.1 = e.2 ∧ e.2 ≠ initWord p e.1 := by
    intro a ha hb e
    obtain ⟨b, v⟩ := e
    simp only [Memory.read]
    constructor
    · intro he
      rw [(lookup_eq_some ha b v).mpr he]
      exact ⟨rfl, (hb _ he).1⟩
    · rintro ⟨h1, h2⟩
      cases hl : a.lookup b with
      | none => rw [hl] at h1; exact absurd h1.symm h2
      | some u => rw [hl] at h1; simp only [Option.getD_some] at h1; rw [← h1]; exact (lookup_eq_some ha b u).mp hl
  have hmem : ∀ e, e ∈ m ↔ e ∈ m' := fun e => by rw [key h.1 h.2, key h'.1 h'.2, hr]
  have nd : ∀ {a : Memory}, (a.Pairwise (fun x y => x.1 < y.1)) → a.Nodup := fun ha =>
    ha.imp (fun hxy heq => by rw [heq] at hxy; exact lt_irrefl _ hxy)
  have hp : m.Perm m' := (List.perm_ext_iff_of_nodup (nd h.1) (nd h'.1)).mpr hmem
  exact hp.eq_of_pairwise (fun a b _ _ hab hba => absurd (lt_trans hab hba) (lt_irrefl _)) h.1 h'.1

end Sys2Proof.Machine
end

