-- ==== Sys2Proof/Laws/Ops.lean ====
section
/-! SUPPORT. What each shared operation can do, said once: the storage operations bit by bit and cell by cell, the
checks of a command, and fault entry. -/

namespace Sys2Proof.Machine

/-! Storage operations, bit by bit. -/

theorem memWrite_blk (s : State) (b c : Nat) (v : Word) :
    (memWrite s b v).blk c = if c = b then v &&& cellMask s.cfg b else s.blk c := by
  simp only [State.blk, memWrite_cfg, memWrite_mem, read_store]

theorem flipAt_blk (s : State) (q : Pos) (c : Nat) :
    (flipAt s q).blk c = if c = q.blk then s.blk c ^^^ BitVec.twoPow 64 q.bit else s.blk c := by
  simp only [State.blk, flipAt_cfg, flipAt_mem, read_store]
  split
  · next h => rw [h]
  · rfl

/-- A flip toggles the bit at its position and no other bit of the storage. -/
theorem flipAt_bitAt (s : State) (q r : Pos) (hq : q.bit < 64) :
    (flipAt s q).bitAt r = (s.bitAt r ^^ decide (r = q)) := by
  simp only [State.bitAt, flipAt_blk]
  by_cases hb : r.blk = q.blk
  · have : (r = q) ↔ q.bit = r.bit := by
      cases r; cases q; simp_all [eq_comm]
    simp [hb, BitVec.getLsbD_twoPow, this, hq]
  · have : r ≠ q := fun h => hb (by rw [h])
    simp [hb, this]

theorem condFlipAt_bitAt (s : State) (q r : Pos) (c : Bool) (hq : q.bit < 64) :
    (condFlipAt s q c).bitAt r = (s.bitAt r ^^ (c && decide (r = q))) := by
  cases c
  · simp [condFlipAt]
  · simp only [condFlipAt, if_true, flipAt_bitAt s q r hq, Bool.true_and]

theorem flipAt_cell (s : State) (i j : Nat) :
    (flipAt s (pos s.cfg i)).cell j = (s.cell j ^^ decide (j = i)) := by
  simp only [State.cell, flipAt_cfg, flipAt_bitAt s _ _ (cell_bit_lt_64 s.cfg i), pos_inj]

theorem condFlipAt_cell (s : State) (i j : Nat) (c : Bool) :
    (condFlipAt s (pos s.cfg i) c).cell j = (s.cell j ^^ (c && decide (j = i))) := by
  simp only [State.cell, condFlipAt_cfg, condFlipAt_bitAt s _ _ c (cell_bit_lt_64 s.cfg i), pos_inj]

/-! Storage operations and the canonical form. -/

theorem memWrite_wf (s : State) (b : Nat) (v : Word) (h : Memory.wf s.cfg s.mem = true) :
    Memory.wf (memWrite s b v).cfg (memWrite s b v).mem = true :=
  wf_store b _ h (by simp [BitVec.and_assoc])

/-- A flip at a cell keeps the canonical form. -/
theorem flipAt_wf (s : State) (q : Pos) (h : Memory.wf s.cfg s.mem = true) (hq : isCell s.cfg q = true) :
    Memory.wf (flipAt s q).cfg (flipAt s q).mem = true := by
  refine wf_store q.blk _ h ?_
  have hm := read_and_cellMask q.blk h
  apply BitVec.eq_of_getLsbD_eq
  intro k hk
  have hmk := congrArg (fun v => BitVec.getLsbD v k) hm
  simp only [BitVec.getLsbD_and, BitVec.getLsbD_xor, BitVec.getLsbD_twoPow, getLsbD_cellMask, State.blk,
    flipAt_cfg] at hmk ⊢
  by_cases hkq : q.bit = k
  · subst hkq
    simp only [hq, Bool.and_true] at hmk ⊢
  · simp only [hkq, decide_false, Bool.and_false, Bool.xor_false]
    exact hmk

theorem condFlipAt_wf (s : State) (q : Pos) (c : Bool) (h : Memory.wf s.cfg s.mem = true)
    (hq : isCell s.cfg q = true) : Memory.wf (condFlipAt s q c).cfg (condFlipAt s q c).mem = true := by
  cases c
  · exact h
  · exact flipAt_wf s q h hq

/-! The checks of a command (60_exceptions.md rule R189). -/

theorem checked_ok {s : State} {legal : Bool} (c : Cause) (w : CmdWord) (effect : State) (hf : s.fault = false)
    (hl : legal = true) : checked s legal c w effect = .next effect := by
  simp [checked, hf, hl]

theorem checked_faulted {s : State} (legal : Bool) (c : Cause) (w : CmdWord) (effect : State) (hf : s.fault = true) :
    checked s legal c w effect = .next (refuse s) := by
  simp [checked, hf]

theorem checked_illegal {s : State} {legal : Bool} (c : Cause) (w : CmdWord) (effect : State) (hf : s.fault = false)
    (hl : legal = false) : checked s legal c w effect = .next (raiseFault s c w) := by
  simp [checked, hf, hl]

/-- Every outcome of a checked command. -/
theorem checked_cases {s t : State} {legal : Bool} {c : Cause} {w : CmdWord} {effect : State}
    (h : checked s legal c w effect = .next t) :
    (s.fault = true ∧ t = refuse s) ∨ (s.fault = false ∧ legal = true ∧ t = effect) ∨
      (s.fault = false ∧ legal = false ∧ t = raiseFault s c w) := by
  unfold checked at h
  split at h
  · next hf => exact .inl ⟨hf, (Host.Outcome.next.inj h).symm⟩
  · next hf =>
    have hf : s.fault = false := by simpa using hf
    split at h
    · next hl => exact .inr (.inl ⟨hf, hl, (Host.Outcome.next.inj h).symm⟩)
    · next hl => exact .inr (.inr ⟨hf, by simpa using hl, (Host.Outcome.next.inj h).symm⟩)

theorem violation_faulted {s : State} (c : Cause) (w : CmdWord) (hf : s.fault = true) :
    violation s c w = refuse s := by simp [violation, hf]

theorem violation_unfaulted {s : State} (c : Cause) (w : CmdWord) (hf : s.fault = false) :
    violation s c w = raiseFault s c w := by simp [violation, hf]

/-- Fault entry while FAULT = 0 writes FAULT, CAUSE and FINFO and responds (1, 0) (60_exceptions.md rule R188). -/
theorem raiseFault_unfaulted {s : State} (c : Cause) (w : CmdWord) (hf : s.fault = false) :
    raiseFault s c w =
      { s with fault := true, cause := c, finfo := w, rsp := some { err := true, data := 0 } } := by
  simp [raiseFault, hf, respond]

end Sys2Proof.Machine
end

