-- ==== Sys2Proof/Laws/PerInstr.lean ====
section
/-! SUPPORT. Statements made per instruction. `MatchesRow`: the word of a command matches the row of the opcode map
that it belongs to (30_encoding.md rules R85 and R86), whatever its operands. -/

namespace Sys2Proof.Laws.MatchesRow

/-- `(word AND mask) = match` for the command's own row. -/
def Statement (i : Instr) : Prop := i.row.accepts (encodeWord i) = true

/-- An index in ARG does not reach the eight high bits. -/
theorem high_bits (op : BitVec 4) (c : Bool) (arg : Nat) :
    packWord op c arg &&& 0xFF000000 = packWord op c 0 := by
  have hm : (0xFF000000 : CmdWord) = (BitVec.allOnes 32) <<< 24 := by decide
  rw [hm]
  apply BitVec.eq_of_getLsbD_eq
  intro k hk
  simp only [packWord, BitVec.getLsbD_and, BitVec.getLsbD_append, BitVec.getLsbD_shiftLeft, BitVec.getLsbD_allOnes, hk]
  by_cases h1 : k < 24
  · simp [h1, show k < 27 by omega, show k < 28 by omega]
  · simp [h1, show k - 24 < 32 by omega]

theorem row_of_pattern {op : BitVec 4} {c : Bool} {arg : Nat} {name : String} {pattern : CmdWord}
    (h : packWord op c 0 = pattern) :
    OpcodeRow.accepts ⟨name, pattern, 0xFF000000⟩ (packWord op c arg) = true := by
  simp only [OpcodeRow.accepts, high_bits, h, beq_self_eq_true]

theorem nop : Statement .nop := by simp only [Statement]; decide

theorem read (i : Nat) : Statement (.read i) := row_of_pattern (by decide)

theorem flip (i : Nat) : Statement (.flip i) := row_of_pattern (by decide)

theorem cflip (i : Nat) (c : Bool) : Statement (.cflip i c) := by
  have h1 : (0xF7000000 : CmdWord) = 0xFF000000 &&& 0xF7000000 := by decide
  have h2 : packWord 0x3 c 0 &&& 0xF7000000 = 0x30000000 := by cases c <;> decide
  simp only [Statement, Instr.row, encodeWord, OpcodeRow.accepts, beq_iff_eq]
  rw [h1, ← BitVec.and_assoc, high_bits, h2]

theorem step : Statement .step := by simp only [Statement]; decide

theorem rdblk (b : Nat) : Statement (.rdblk b) := row_of_pattern (by decide)

theorem wrblk (b : Nat) (din : Word) : Statement (.wrblk b din) := row_of_pattern (by decide)

theorem rdreg (r : Nat) : Statement (.rdreg r) := row_of_pattern (by decide)

end Sys2Proof.Laws.MatchesRow
end

