-- ==== Sys2Proof/Laws/Sequencer.lean ====
section
/-! SUPPORT. One lemma per part of the step sequencer: what it answers when its window lies on cells
(41_step.md rules R133 to R138). -/

namespace Sys2Proof.Machine

theorem seqRead_pos (s : State) {i : Nat} (h : i < s.cfg.n) : seqRead s (pos s.cfg i) = .ok (s.cell i) := by
  simp [seqRead, isCell_pos, h, State.cell]

theorem seqRead_eq_ok {s : State} {q : Pos} {v : Bool} (h : seqRead s q = .ok v) :
    isCell s.cfg q = true ∧ v = s.bitAt q := by
  unfold seqRead at h
  split at h
  · next hq => exact ⟨hq, (Except.ok.inj h).symm⟩
  · exact absurd h (by simp)

theorem seqPut_pos (s : State) {i : Nat} (v : Bool) (h : i < s.cfg.n) :
    seqPut s (pos s.cfg i) v = .ok (condFlipAt s (pos s.cfg i) (s.cell i ^^ v)) := by
  simp only [seqPut, seqRead_pos s h]; rfl

theorem seqPut_eq_ok {s t : State} {q : Pos} {v : Bool} (h : seqPut s q v = .ok t) :
    isCell s.cfg q = true ∧ t = condFlipAt s q (s.bitAt q ^^ v) := by
  unfold seqPut at h
  cases hr : seqRead s q with
  | error f => rw [hr] at h; exact absurd h (by simp [bind, Except.bind])
  | ok x =>
    obtain ⟨hq, rfl⟩ := seqRead_eq_ok hr
    rw [hr] at h
    exact ⟨hq, (Except.ok.inj h).symm⟩

/-- The flip that the sequencer asks for makes the cell the wanted value, and changes no other (rule R135). -/
theorem put_cell (s : State) (i j : Nat) (v : Bool) :
    (condFlipAt s (pos s.cfg i) (s.cell i ^^ v)).cell j = if j = i then v else s.cell j := by
  rw [condFlipAt_cell]
  by_cases h : j = i
  · subst h; cases s.cell j <;> cases v <;> simp
  · simp [h]

theorem put_bitAt (s : State) (i : Nat) (q : Pos) (v : Bool) (hq : q ≠ pos s.cfg i) :
    (condFlipAt s (pos s.cfg i) (s.cell i ^^ v)).bitAt q = s.bitAt q := by
  rw [condFlipAt_bitAt s _ _ _ (cell_bit_lt_64 s.cfg i)]
  simp [hq]

theorem condFlipAt_setSeq (s : State) (q : Pos) (c : Bool) (ph : SeqPhase) (r : SeqRegs) :
    condFlipAt (setSeq s ph r) q c = setSeq (condFlipAt s q c) ph r := by
  cases c <;> rfl

theorem seqStart_eq (s : State) :
    seqStart s = .ok (setSeq s .loop
      { i := 3, wl := pos s.cfg 0, wc := pos s.cfg 1, wr := pos s.cfg 2, prev := s.cell 0,
        curr := s.seq.regs.curr }) := by
  have := three_le_n s.cfg
  simp only [seqStart, seqRead_pos s (show 0 < s.cfg.n by omega)]
  rfl

/-- One iteration with the window on cells k, k+1, k+2: cell k becomes PREV, the window moves by one cell, and PREV
and CURR are RULE's entry for the three cells as they were (rules R134 to R136). -/
theorem seqIter_eq (s : State) (k : Nat) (hwl : s.seq.regs.wl = pos s.cfg k) (hwc : s.seq.regs.wc = pos s.cfg (k + 1))
    (hwr : s.seq.regs.wr = pos s.cfg (k + 2)) (hk : k + 2 < s.cfg.n) :
    seqIter s = .ok (setSeq (condFlipAt s (pos s.cfg k) (s.cell k ^^ s.seq.regs.prev)) s.seq.phase
      { i := s.seq.regs.i + 1, wl := pos s.cfg (k + 1), wc := pos s.cfg (k + 2), wr := pos s.cfg s.seq.regs.i,
        prev := ruleNext s.cfg (s.cell k) (s.cell (k + 1)) (s.cell (k + 2)),
        curr := ruleNext s.cfg (s.cell k) (s.cell (k + 1)) (s.cell (k + 2)) }) := by
  have hlook : seqLookup s = .ok (setSeq s s.seq.phase
      { s.seq.regs with curr := ruleNext s.cfg (s.cell k) (s.cell (k + 1)) (s.cell (k + 2)) }) := by
    simp only [seqLookup, hwl, hwc, hwr, seqRead_pos s (show k < s.cfg.n by omega),
      seqRead_pos s (show k + 1 < s.cfg.n by omega), seqRead_pos s hk]
    simp only [bind, Except.bind, pure, Except.pure]
  have hput : ∀ r : SeqRegs, seqPut (setSeq s s.seq.phase r) (pos s.cfg k) s.seq.regs.prev =
      .ok (setSeq (condFlipAt s (pos s.cfg k) (s.cell k ^^ s.seq.regs.prev)) s.seq.phase r) := by
    intro r
    have := seqPut_pos (setSeq s s.seq.phase r) (i := k) s.seq.regs.prev (by simp; omega)
    simpa [condFlipAt_setSeq] using this
  simp only [seqIter, hlook, seqWrite, bind, Except.bind, pure, Except.pure, setSeq_seq, hwl, hput]
  simp [seqShift, setSeq, hwc, hwr]

theorem seqFlush_eq (s : State) (k : Nat) (hwl : s.seq.regs.wl = pos s.cfg k) (hk : k < s.cfg.n) :
    seqFlush s = .ok (setSeq (condFlipAt s (pos s.cfg k) (s.cell k ^^ s.seq.regs.curr)) .flush s.seq.regs) := by
  have := seqPut_pos (setSeq s .flush s.seq.regs) (i := k) s.seq.regs.curr (by simp; exact hk)
  simp only [seqFlush, hwl]
  simpa [condFlipAt_setSeq] using this

end Sys2Proof.Machine
end

