-- ==== Sys2Proof/Tests/Slice0.lean ====
section
/-! SUPPORT. Small tests, each with the place in spec/ its expected result comes from, and for each statement with
hypotheses a witness that meets them (`test_hyp_<statement>`). -/

namespace Sys2Proof.Machine.Tests

/-- An answer's next state. -/
def nextOf : Result → Option State
  | .next t => some t
  | _ => none

/-- What an answer leaves: the response, the first k blocks, STATUS and FINFO. -/
def seen (k : Nat) (r : Result) : Option (Option Response × List Word × CmdWord × CmdWord) :=
  (nextOf r).map (fun t => (t.rsp, (List.range k).map t.blk, t.status, t.finfo))

/-- N = 10, W = 8, RULE 0x6E, with the blocks given at reset. -/
def ten (b0 b1 : Word) : State :=
  State.resetFor { cellsLess3 := 7, widthLess1 := 7, rule := 0x6E, init := [b0, b1] }

/-- N = 5, W = 1, RULE 0x6E, cells 01011. -/
def five : State :=
  State.resetFor { cellsLess3 := 2, widthLess1 := 0, rule := 0x6E, init := [0, 1, 0, 1, 1] }

/-- N = 3, W = 8, RULE 0x6E, cells 101. -/
def three : State :=
  State.resetFor { cellsLess3 := 0, widthLess1 := 7, rule := 0x6E, init := [0xA0] }

/-- The REF state in which READ 24 has faulted (95_test_vectors.md V-FLT-1). -/
def faulted : State := { State.reset with fault := true, cause := .indexRange, finfo := 0x10000018 }

/-! Well-formedness: an ill-formed term for each check, and the largest operand that fits. -/

theorem test_wellFormed_refuses :
    (Instr.read 16777216).wellFormed = false ∧ (Instr.flip 16777216).wellFormed = false ∧
    (Instr.cflip 16777216 true).wellFormed = false ∧ (Instr.rdblk 16777216).wellFormed = false ∧
    (Instr.wrblk 16777216 0).wellFormed = false ∧ (Instr.rdreg 16777216).wellFormed = false := by decide

theorem test_wellFormed_accepts :
    (Instr.read 16777215).wellFormed = true ∧ Instr.nop.wellFormed = true ∧ Instr.step.wellFormed = true := by decide

/-- 00_scope.md rules R6 and R7. -/
theorem test_configurations_refused :
    Params.make? 2 8 0 [] = none ∧ Params.make? 16777217 8 0 [] = none ∧ Params.make? 24 0 0 [] = none ∧
    Params.make? 24 65 0 [] = none ∧ (Params.make? 3 1 0 []).isSome = true ∧
    (Params.make? 16777216 64 0 []).isSome = true := by decide

theorem test_ref_configuration : Params.make? 24 8 0x6E [0x00, 0x01, 0x02] = some Params.ref := by decide

/-- A storage list out of order, with an entry that should not be listed, or with a padding bit set, is not canonical. -/
theorem test_memory_form_refuses :
    Memory.wf (ten 0 0).cfg [(1, 0x40), (0, 0x80)] = false ∧ Memory.wf (ten 0 0).cfg [(0, 0x00)] = false ∧
    Memory.wf (ten 0 0).cfg [(1, 0x20)] = false ∧ Memory.wf (ten 0 0).cfg [(2, 0x80)] = false ∧
    Memory.wf (ten 0 0).cfg [(0, 0x80), (1, 0x40)] = true := by decide

/-! Decoding: words written out bit by bit from 30_encoding.md rules R83 and R85. -/

theorem test_decode_words : ∀ din : Word,
    decode 0b00000000000000000000000000000000 din = .ok .nop ∧
    decode 0b00010000000000000000000000010110 din = .ok (.read 22) ∧
    decode 0b00100000000000000000000000010111 din = .ok (.flip 23) ∧
    decode 0b00110000000000000000000000010110 din = .ok (.cflip 22 false) ∧
    decode 0b00111000111111111111111111111111 din = .ok (.cflip 16777215 true) ∧
    decode 0b01000000000000000000000000000000 din = .ok .step ∧
    decode 0b01010000000000000000000000000010 din = .ok (.rdblk 2) ∧
    decode 0b01100000000000000000000000000010 din = .ok (.wrblk 2 din) ∧
    decode 0b01110000000000000000000000000100 din = .ok (.rdreg 4) :=
  fun _ => ⟨rfl, rfl, rfl, rfl, rfl, rfl, rfl, rfl, rfl⟩

/-- 95_test_vectors.md section 2, one illegal word for each reason. -/
theorem test_decode_rejects :
    decode 0x90000000 0 = .error .reservedOpcode ∧ decode 0x11000000 0 = .error .reservedBits ∧
    decode 0x18000016 0 = .error .conditionBit ∧ decode 0x48000000 0 = .error .conditionBit ∧
    decode 0x40000001 0 = .error .argumentBits ∧ decode 0x00000001 0 = .error .argumentBits :=
  ⟨rfl, rfl, rfl, rfl, rfl, rfl⟩

/-- 30_encoding.md rule R92. -/
theorem test_encode_words :
    encodeWord (.cflip 22 true) = 0x38000016 ∧ encodeWord (.wrblk 2 0x1FF) = 0x60000002 ∧
    encodeDin (.wrblk 2 0x1FF) = 0x1FF ∧ encodeWord .step = 0x40000000 := by decide

theorem test_decodeTableWord :
    decodeTableWord 32 0x70000004 = some (.rdreg 4) ∧ decodeTableWord 32 0x80000000 = none := by decide

/-- `CFLIP 22, 1 ; set` is a line of assembly, `READ` without an operand is an error (30_encoding.md rule R92). -/
theorem test_assembleLine :
    assembleLine ['C', 'F', 'L', 'I', 'P', ' ', '2', '2', ',', ' ', '1', ' ', ';', ' ', 's', 'e', 't'] =
      some { cmd := 0x38000016, din := 0 } ∧
    assembleLine ['R', 'E', 'A', 'D'] = none := by decide

theorem test_assembleLine_names_and_hex :
    assembleLine ['R', 'D', 'R', 'E', 'G', ' ', 'C', 'F', 'G', '_', 'N', 'B'] = some { cmd := 0x70000004, din := 0 } ∧
    assembleLine ['W', 'R', 'B', 'L', 'K', ' ', '2', ',', '0', 'x', '1', 'F', 'F'] =
      some { cmd := 0x60000002, din := 0x1FF } := by decide

/-- SETV with the least index that has no word is an assembly error; with the greatest that has one it runs and READ
faults with INDEX_RANGE (30_encoding.md rules R92 and R93, 60_exceptions.md rules R183 and R190). -/
theorem test_setv_operand :
    runPseudo (.setv 16777216 true) State.reset = none ∧
    (runPseudo (.setv 16777215 true) State.reset).map (fun o => o.1) = some [⟨true, 0⟩, ⟨true, 0⟩] := by decide

/-! Each command, from the vectors of 95_test_vectors.md. -/

/-- V-CTL-1. -/
theorem test_nop_in_fault_state :
    seen 3 (exec .nop faulted) = some (some ⟨false, 0⟩, [0x00, 0x01, 0x02], 0x6E21, 0x10000018) := by decide

/-- V-CELL-3. -/
theorem test_read_22 :
    seen 3 (exec (.read 22) State.reset) = some (some ⟨false, 1⟩, [0x00, 0x01, 0x02], 0x6E00, 0) := by decide

/-- Section 3, after the table: cell 10 of N = 10 would lie in the padding. -/
theorem test_read_padding_index :
    seen 2 (exec (.read 10) (ten 0 0)) = some (some ⟨true, 0⟩, [0x00, 0x00], 0x6E21, 0x1000000A) := by decide

/-- V-CELL-6. -/
theorem test_flip_0 :
    seen 3 (exec (.flip 0) State.reset) = some (some ⟨false, 0⟩, [0x80, 0x01, 0x02], 0x6E00, 0) := by decide

/-- V-CELL-10. -/
theorem test_flip_largest_index :
    seen 3 (exec (.flip 16777215) State.reset) =
      some (some ⟨true, 0⟩, [0x00, 0x01, 0x02], 0x6E21, 0x20FFFFFF) := by decide

/-- V-CELL-13. -/
theorem test_cflip_8_1 :
    seen 3 (exec (.cflip 8 true) State.reset) = some (some ⟨false, 0⟩, [0x00, 0x81, 0x02], 0x6E00, 0) := by decide

/-- V-CELL-14. -/
theorem test_cflip_24_0 :
    seen 3 (exec (.cflip 24 false) State.reset) =
      some (some ⟨true, 0⟩, [0x00, 0x01, 0x02], 0x6E21, 0x30000018) := by decide

/-- V-STEP-5: a partial last block, codes 1 to 6. -/
theorem test_step_partial_block :
    seen 2 (exec .step (ten 0x96 0x40)) = some (some ⟨false, 0⟩, [0xBE, 0xC0], 0x6E00, 0) := by decide

/-- V-STEP-12: one cell a block. -/
theorem test_step_one_cell_blocks :
    seen 5 (exec .step five) = some (some ⟨false, 0⟩, [0, 1, 1, 1, 1], 0x6E00, 0) := by decide

/-- V-BLK-2. -/
theorem test_rdblk_1 :
    seen 3 (exec (.rdblk 1) State.reset) = some (some ⟨false, 0x01⟩, [0x00, 0x01, 0x02], 0x6E00, 0) := by decide

/-- V-BLK-4. -/
theorem test_rdblk_3 :
    seen 3 (exec (.rdblk 3) State.reset) =
      some (some ⟨true, 0⟩, [0x00, 0x01, 0x02], 0x6E31, 0x50000003) := by decide

/-- V-BLK-5. -/
theorem test_wrblk_high_bits_ignored :
    seen 3 (exec (.wrblk 2 0x1FF) State.reset) =
      some (some ⟨false, 0⟩, [0x00, 0x01, 0xFF], 0x6E00, 0) := by decide

/-- V-BLK-8. -/
theorem test_wrblk_padding :
    seen 2 (exec (.wrblk 1 0xFF) (ten 0 0)) = some (some ⟨false, 0⟩, [0x00, 0xC0], 0x6E00, 0) := by decide

/-- V-CTL-12. -/
theorem test_rdreg_status_in_fault_state :
    seen 3 (exec (.rdreg 0) faulted) =
      some (some ⟨false, 0x6E21⟩, [0x00, 0x01, 0x02], 0x6E21, 0x10000018) := by decide

/-- V-CTL-7. -/
theorem test_rdreg_5 :
    seen 3 (exec (.rdreg 5) State.reset) =
      some (some ⟨true, 0⟩, [0x00, 0x01, 0x02], 0x6E41, 0x70000005) := by decide

/-! The step: a placed word, an illegal word, reset. -/

/-- V-SRC-1a, by the word of STEP. -/
theorem test_placed_step :
    seen 3 (step (State.reset.withFetchWord 32 0x40000000)) =
      some (some ⟨false, 0⟩, [0x00, 0x03, 0x06], 0x6E00, 0) := by decide

/-- V-FLT-5: ILLEGAL_CMD. -/
theorem test_placed_illegal_word :
    seen 3 (step (State.reset.withFetchWord 32 0x40000001)) =
      some (some ⟨true, 0⟩, [0x00, 0x01, 0x02], 0x6E11, 0x40000001) := by decide

/-- V-FLT-7: the refusal comes before decode. -/
theorem test_illegal_word_in_fault_state :
    seen 3 (step (faulted.withFetchWord 32 0x90000000)) =
      some (some ⟨true, 0⟩, [0x00, 0x01, 0x02], 0x6E21, 0x10000018) := by decide

/-- V-FLT-10, with the reset during a STEP (70_reset_and_hazards.md rule R212). -/
theorem test_reset_during_step :
    seen 3 (step { faulted with cmds := [⟨0x40000000, 0⟩], rstIn := [.during] }) =
      some (none, [0x00, 0x01, 0x02], 0x6E00, 0) := by decide

/-! What the hypotheses of each statement ask for, met. -/

theorem test_hyp_DecodeOfEncode : (Instr.wrblk 16777215 7).wellFormed = true := by decide

theorem test_hyp_EncodeOfDecode : decode 0x60FFFFFF 7 = .ok (.wrblk 16777215 7) := rfl

theorem test_hyp_WordSpellsTheRowItMatches :
    Instr.row (.read 0) ∈ opcodeTable ∧ (Instr.row (.read 0)).accepts 0x10FFFFFF = true ∧
    State.reset.fault = false ∧ ∀ r ∈ opcodeTable, r.accepts 0x80000000 = false := by decide

theorem test_hyp_ReservedAndMalformedWordsRaiseIllegalCmd :
    State.reset.fault = false ∧ (0x80000000 : CmdWord).getLsbD 31 = true ∧
    (0x17000000 : CmdWord).extractLsb' 24 3 ≠ 0 ∧
    ((0x28000000 : CmdWord).getLsbD 27 = true ∧ (0x28000000 : CmdWord).extractLsb' 28 4 ≠ 3) ∧
    ((0x40000001 : CmdWord).extractLsb' 28 4 = 4 ∧ (0x40000001 : CmdWord).extractLsb' 0 24 ≠ 0) ∧
    ((0x00000001 : CmdWord).extractLsb' 28 4 = 0 ∧ (0x00000001 : CmdWord).extractLsb' 0 24 ≠ 0) := by decide

theorem test_hyp_DinIsTheBlockWordAndElseIgnored :
    opField 0x10000016 ≠ 6 ∧
    (∀ k, k < (ten 0 0).cfg.w → (0xFF : Word).getLsbD k = (0x1FF : Word).getLsbD k) ∧
    (ten 0 0).fault = false ∧ 1 < nb (ten 0 0).cfg ∧ 1 < (ten 0 0).cfg.w ∧
    1 * (ten 0 0).cfg.w + 1 < (ten 0 0).cfg.n ∧ isPadding (ten 0 0).cfg ⟨1, 5⟩ = true := by decide

theorem test_hyp_AssemblyRefusesOperandsThatDoNotFit :
    (Instr.read 16777216).wellFormed = false ∧ (Instr.read 16777215).wellFormed = true := by decide

theorem test_hyp_StepRunsTheDecodedCommand :
    ({ State.reset with cmds := [⟨0x10000016, 0⟩], rstIn := [.low] } : State).cmds = [⟨0x10000016, 0⟩] ∧
    State.reset.rstIn = [] ∧ decode 0x10000016 0 = .ok (.read 22) := ⟨rfl, rfl, rfl⟩

theorem test_hyp_PlacedWordRunsNext : decodeTableWord 32 0x40000000 = some .step := by decide

theorem test_hyp_CommandsAreAcceptedInOrder :
    (nextOf (step { State.reset with cmds := [⟨0, 0⟩, ⟨0, 0⟩] })).isSome = true ∧ State.reset.rstLow = true ∧
    (nextOf (step { State.reset with rstIn := [.high] })).isSome = true := by decide

theorem test_hyp_EveryStepAnswers :
    State.reset.rstLow = true ∧ ({ State.reset with cmds := [⟨0, 0⟩] } : State).cmds ≠ [] := by decide

theorem test_hyp_IdleBlockKeepsItsState :
    State.reset.cmds = [] ∧ State.reset.rstIn = [] ∧ 0 < 1 := by decide

theorem test_hyp_ResetRestoresTheResetState :
    ({ faulted with rstIn := [.high] } : State).rstIn = .high :: [] := by decide

theorem test_hyp_ResetDuringACommandAbandonsIt :
    ({ faulted with rstIn := [.during], cmds := [⟨0x40000000, 0⟩] } : State).rstIn = .during :: [] ∧
    ({ faulted with rstIn := [.during], cmds := [⟨0x40000000, 0⟩] } : State).cmds = ⟨0x40000000, 0⟩ :: [] := by decide

theorem test_hyp_StepKeepsTheInvariant :
    faulted.inv = true ∧ (nextOf (step faulted)).isSome = true := by decide

theorem test_hyp_NoStepChangesTheConfiguration :
    (nextOf (step (State.reset.withFetchWord 32 0x60000000))).isSome = true := by decide

/-- The highest legal cell, and the lowest and highest illegal one with a word (READ, FLIP and CFLIP). -/
theorem test_hyp_ReadAnswersTheCell :
    State.reset.fault = false ∧ 23 < State.reset.cfg.n ∧ State.reset.cfg.n ≤ 24 ∧ 24 < 16777216 := by decide

theorem test_hyp_FlipTogglesOneCell :
    (ten 0 0).fault = false ∧ 9 < (ten 0 0).cfg.n ∧ (ten 0 0).cfg.n ≤ 10 ∧ 16777215 < 16777216 := by decide

theorem test_hyp_CflipTogglesIfTold :
    five.fault = false ∧ 4 < five.cfg.n ∧ five.cfg.n ≤ 5 ∧ 5 < 16777216 := by decide

theorem test_hyp_CflipSetsAKnownValue : State.reset.fault = false ∧ 0 < State.reset.cfg.n := by decide

theorem test_hyp_SetvSetsTheCell :
    State.reset.fault = false ∧ 23 < State.reset.cfg.n ∧ (0 : Nat) ≠ 23 ∧ 16777216 ≤ 16777216 := by decide

theorem test_hyp_RdblkAnswersTheBlock :
    (ten 0 0).fault = false ∧ 1 < nb (ten 0 0).cfg ∧ 7 < (ten 0 0).cfg.w ∧ (ten 0 0).inv = true ∧
    isCell (ten 0 0).cfg ⟨1, 5⟩ = false ∧ nb (ten 0 0).cfg ≤ 2 ∧ 2 < 16777216 := by decide

theorem test_hyp_WrblkStoresTheBlock :
    State.reset.fault = false ∧ 2 < nb State.reset.cfg ∧ State.reset.inv = true ∧ nb State.reset.cfg ≤ 3 := by decide

theorem test_hyp_ReadSeesTheLatestWrite :
    State.reset.fault = false ∧ 22 < State.reset.cfg.n ∧ 2 < nb State.reset.cfg := by decide

theorem test_hyp_OnlyWritingCommandsChangeTheStorage :
    writesStorage (.rdblk 1) = false ∧ (nextOf (exec (.rdblk 1) State.reset)).isSome = true := by decide

theorem test_hyp_PaddingBitsAreZero :
    (ten 0 0).inv = true ∧ 5 < padBits (ten 0 0).cfg ∧ (nextOf (step (ten 0 0))).isSome = true ∧
    (nextOf (exec .step (ten 0 0))).isSome = true ∧ isPadding (ten 0 0).cfg ⟨1, 5⟩ = true := by decide

/-- The two edges of N = 10, W = 8: cell 9 is bit 6 of block 1, and bits 5 to 0 are padding. -/
theorem test_hyp_CellsAndBitsCorrespond :
    9 < (ten 0 0).cfg.n ∧ pos (ten 0 0).cfg 9 = ⟨1, 6⟩ ∧ 1 < nb (ten 0 0).cfg ∧ 6 < (ten 0 0).cfg.w ∧
    ¬(1 = nb (ten 0 0).cfg - 1 ∧ 6 < padBits (ten 0 0).cfg) ∧ padBits (ten 0 0).cfg = 6 := by decide

theorem test_hyp_StepComputesTheNextGeneration :
    three.fault = false ∧ 1 ≤ 1 ∧ 1 ≤ three.cfg.n - 2 ∧ isCell three.cfg ⟨0, 4⟩ = false := by decide

theorem test_hyp_StepNeverFaultsAndHasThisFrame : three.fault = false := by decide

/-- k = 0 and the last k, N - 2. -/
theorem test_hyp_WritesTrailReadsByOneCell : 0 ≤ three.cfg.n - 2 ∧ 1 ≤ three.cfg.n - 2 ∧ 0 < 1 := by decide

theorem test_hyp_LoopRunsNMinusTwoTimes :
    (∃ a, seqStart three = .ok a) ∧ three.cfg.n - 2 ≤ 1 := ⟨⟨_, rfl⟩, by decide⟩

theorem test_hyp_AllDeadRowStaysDead :
    (ten 0 0).fault = false ∧ (ten 0 0).cfg.rule.getLsbD 0 = false ∧
    ∀ j, j < (ten 0 0).cfg.n → (ten 0 0).cell j = false := by decide

theorem test_hyp_ThreeCellRowGivesTheRuleEntry : three.fault = false ∧ three.cfg.n = 3 := by decide

theorem test_hyp_BoundaryCellsKeepTheirValues :
    decode 0x40000000 0 = .ok .step ∧ writesStorage (.read 22) = false ∧
    ∀ c ∈ [(⟨0x40000000, 0⟩ : Command)], ∀ i, decode c.cmd c.din = .ok i → i = .step ∨ writesStorage i = false := by
  refine ⟨rfl, rfl, ?_⟩
  intro c hc i hi
  rw [List.mem_singleton.mp hc] at hi
  exact .inl (Except.ok.inj hi).symm

/-- The same row, 11000, in two block widths. -/
theorem test_hyp_StepDependsOnCellsAndRuleAlone :
    let s : State := State.resetFor { cellsLess3 := 2, widthLess1 := 7, rule := 0x6E, init := [0xC0] }
    let s' : State := State.resetFor { cellsLess3 := 2, widthLess1 := 0, rule := 0x6E, init := [1, 1] }
    s.fault = false ∧ s'.fault = false ∧ s.cfg.n = s'.cfg.n ∧ s.cfg.rule = s'.cfg.rule ∧
      ∀ j, j < s.cfg.n → s.cell j = s'.cell j := by decide

theorem test_hyp_NopDoesNothing : opField 0x00000001 = 0 ∧ (0x00000001 : CmdWord) ≠ 0 := by decide

theorem test_hyp_RdregAnswersTheRegister :
    4 < 5 ∧ 5 < 16777216 ∧ State.reset.fault = false ∧ State.reset.inv = true := by decide

theorem test_hyp_StatusHasItsFields : faulted.inv = true := by decide

theorem test_hyp_ChecksAreInOrder_refusal :
    faulted.fault = true ∧ (∀ i, decode 0x90000000 0 = .ok i → allowedInFault i = false) :=
  ⟨rfl, fun _ h => nomatch h⟩

theorem test_hyp_ChecksAreInOrder_illegal :
    State.reset.fault = false ∧ (∀ i, decode 0x90000000 0 ≠ .ok i) := ⟨rfl, fun _ h => nomatch h⟩

theorem test_hyp_ChecksAreInOrder_range :
    State.reset.fault = false ∧ decode 0x10000018 0 = .ok (.read 24) ∧
    rangeCause State.reset.cfg (.read 24) = some .indexRange ∧ decode 0x10000017 0 = .ok (.read 23) ∧
    rangeCause State.reset.cfg (.read 23) = none := ⟨rfl, rfl, by decide, rfl, by decide⟩

theorem test_hyp_ChecksAreInOrder_fault_state :
    faulted.fault = true ∧ decode 0x70000004 0 = .ok (.rdreg 4) ∧ allowedInFault (.rdreg 4) = true := ⟨rfl, rfl, rfl⟩

theorem test_hyp_FaultStateRefusesTheRest :
    faulted.fault = true ∧ 4 ≤ 4 ∧ (0x70000004 : CmdWord) = 0x70000000 ||| BitVec.ofNat 32 4 ∧
    (0x70000005 : CmdWord) ≠ 0 ∧ (∀ r, r ≤ 4 → (0x70000005 : CmdWord) ≠ 0x70000000 ||| BitVec.ofNat 32 r) := by decide

theorem test_hyp_OnlyResetClearsAFault :
    faulted.fault = true ∧ (nextOf (step faulted)).isSome = true ∧ faulted.rstLow = true ∧
    ({ faulted with rstIn := [.during] } : State).rstLow = false ∧
    (nextOf (step { faulted with rstIn := [.during] })).isSome = true := by decide

theorem test_hyp_FaultsArePrecise :
    State.reset.fault = false ∧
    (nextOf (executeCommand ⟨0x10000018, 0⟩ State.reset)).map (fun t => t.fault) = some true := by decide

theorem test_hyp_OnlyAFaultChangesTheRecord :
    State.reset.rstLow = true ∧ (nextOf (step (State.reset.withFetchWord 32 0x10000018))).isSome = true := by decide

end Sys2Proof.Machine.Tests
end

section
/-! Scope (00_scope.md): what reset loads, and which bits of the storage are padding. -/

namespace Sys2Proof.Machine

/-! The state after reset. -/

@[simp] theorem resetFor_blk (p : Params) (b : Nat) : (State.resetFor p).blk b = initWord p b := rfl

/-- Reset loads INIT's bit where a cell lies and 0 elsewhere (R10, R32). -/
theorem getLsbD_initWord (p : Params) (b k : Nat) :
    (initWord p b).getLsbD k = (isCell p ⟨b, k⟩ && (p.init.getD b 0).getLsbD k) := by
  rw [initWord, BitVec.getLsbD_and, getLsbD_cellMask, Bool.and_comm]

/-- The three parts of the invariant, each as a fact of its own. -/
theorem inv_iff (s : State) :
    s.inv = true ↔ Memory.wf s.cfg s.mem = true ∧ s.faultRecordOk = true ∧ s.seq.phase = .idle := by
  simp [State.inv, and_assoc]

theorem resetFor_inv (p : Params) : (State.resetFor p).inv = true :=
  (inv_iff _).mpr ⟨wf_nil p, rfl, rfl⟩

/-- Settles O16: nothing is listed after reset, so the storage is canonical and every block reads its `initWord`. -/
theorem resetStateMeetsTheInvariant : Obligations.ResetStateMeetsTheInvariant := by
  intro p
  refine ⟨resetFor_inv p, fun b k => ?_⟩
  rw [resetFor_blk, getLsbD_initWord]

/-! The padding bits. -/

theorem padBits_lt_w (p : Params) : padBits p < p.w := by
  have hlt := nb_mul_w_lt p
  have hw := w_pos p
  simp only [padBits]; omega

/-- The padding bits are the low `NB*W - N` bits of the last block, and no others (R8, R32). -/
theorem isPadding_iff (p : Params) (q : Pos) :
    isPadding p q = true ↔ q.blk = nb p - 1 ∧ q.bit < padBits p := by
  simp only [isPadding, Bool.and_eq_true, decide_eq_true_eq, Bool.not_eq_true', ← Bool.not_eq_true]
  constructor
  · rintro ⟨⟨hblk, hbit⟩, hcell⟩
    rwa [isCell_iff_not_low p q.blk q.bit hblk hbit, not_not] at hcell
  · intro hlow
    have hblk : q.blk < nb p := by have := nb_pos p; omega
    have hbit : q.bit < p.w := hlow.2.trans (padBits_lt_w p)
    exact ⟨⟨hblk, hbit⟩, fun hcell => (isCell_iff_not_low p q.blk q.bit hblk hbit).mp hcell hlow⟩

/-- Settles O29: the count is `nb`'s definition; the bounds and the place of the padding are the geometry's lemmas. -/
theorem blocksHoldTheCells : Obligations.BlocksHoldTheCells :=
  fun p => ⟨n_le_nb_mul_w p, padBits_lt_w p, rfl, isPadding_iff p⟩

end Sys2Proof.Machine
end

section
/-! What a command can do, said once, for every command and every word: it is refused, it raises a fault, or it
completes with an effect on the storage (60_exceptions.md rules R187 to R190). -/

namespace Sys2Proof.Machine

/-! The effect of a command that completes. -/

/-- What the commands and the parts of the sequencer may write: the storage, keeping its canonical form, the
sequencer's registers, and the model's own counter (20_memory.md rule R65, 41_step.md rule R138). -/
inductive StorageEffect (s : State) : State → Prop where
  | intro (m : Memory) (q : Sequencer) (k : Nat) (wf : Memory.wf s.cfg s.mem = true → Memory.wf s.cfg m = true) :
      StorageEffect s { s with mem := m, seq := q, fresh := k }

theorem StorageEffect.refl (s : State) : StorageEffect s s := ⟨_, _, _, id⟩

theorem StorageEffect.trans {s t u : State} (hst : StorageEffect s t) (htu : StorageEffect t u) :
    StorageEffect s u := by
  obtain ⟨m, q, k, hm⟩ := hst
  obtain ⟨m', q', k', hm'⟩ := htu
  exact ⟨m', q', k', hm' ∘ hm⟩

theorem memWrite_effect (s : State) (b : Nat) (v : Word) : StorageEffect s (memWrite s b v) :=
  ⟨_, _, _, memWrite_wf s b v⟩

theorem flipAt_effect (s : State) {q : Pos} (hq : isCell s.cfg q = true) : StorageEffect s (flipAt s q) :=
  ⟨_, _, _, fun h => flipAt_wf s q h hq⟩

theorem condFlipAt_effect (s : State) {q : Pos} (c : Bool) (hq : isCell s.cfg q = true) :
    StorageEffect s (condFlipAt s q c) := by
  cases c
  · exact .refl s
  · exact flipAt_effect s hq

theorem setSeq_effect (s : State) (ph : SeqPhase) (r : SeqRegs) : StorageEffect s (setSeq s ph r) :=
  ⟨_, _, _, id⟩

theorem seqEnd_effect (s : State) : StorageEffect s (seqEnd s) := ⟨_, _, _, id⟩

/-! The sequencer, part by part. -/

/-- A sequence of two parts answers where both do. -/
theorem bind_eq_ok {α β : Type} {x : Except Fault α} {f : α → Except Fault β} {b : β} (h : x >>= f = .ok b) :
    ∃ a, x = .ok a ∧ f a = .ok b := by
  cases x with
  | error e => exact nomatch h
  | ok a => exact ⟨a, rfl, h⟩

theorem seqStart_effect {s t : State} (h : seqStart s = .ok t) : StorageEffect s t := by
  rw [seqStart_eq] at h
  cases h
  exact setSeq_effect s _ _

theorem seqPut_effect {s t : State} {q : Pos} {v : Bool} (h : seqPut s q v = .ok t) : StorageEffect s t := by
  obtain ⟨hq, rfl⟩ := seqPut_eq_ok h
  exact condFlipAt_effect s _ hq

theorem seqLookup_effect {s t : State} (h : seqLookup s = .ok t) : StorageEffect s t := by
  obtain ⟨l, -, h⟩ := bind_eq_ok h
  obtain ⟨c, -, h⟩ := bind_eq_ok h
  obtain ⟨r, -, h⟩ := bind_eq_ok h
  cases h
  exact setSeq_effect s _ _

theorem seqIter_effect {s t : State} (h : seqIter s = .ok t) : StorageEffect s t := by
  obtain ⟨a, ha, h⟩ := bind_eq_ok h
  obtain ⟨b, hb, h⟩ := bind_eq_ok h
  cases h
  exact ((seqLookup_effect ha).trans (seqPut_effect hb)).trans (setSeq_effect b _ _)

theorem seqLoop_effect {fuel : Nat} {s t : State} (h : seqLoop fuel s = .ok t) : StorageEffect s t := by
  induction fuel generalizing s with
  | zero => cases h; exact .refl _
  | succ fuel ih =>
    simp only [seqLoop] at h
    split at h
    · obtain ⟨a, ha, h⟩ := bind_eq_ok h
      exact (seqIter_effect ha).trans (ih h)
    · cases h; exact .refl _

theorem seqFlush_effect {s t : State} (h : seqFlush s = .ok t) : StorageEffect s t :=
  (setSeq_effect s _ _).trans (seqPut_effect h)

/-- The sequencer writes the storage only, and ends with SEQ IDLE (rule R138). -/
theorem runSequencer_effect {s t : State} (h : runSequencer s = .ok t) :
    StorageEffect s t ∧ t.seq.phase = .idle := by
  obtain ⟨a, ha, h⟩ := bind_eq_ok h
  obtain ⟨b, hb, h⟩ := bind_eq_ok h
  obtain ⟨c, hc, h⟩ := bind_eq_ok h
  cases h
  exact ⟨(((seqStart_effect ha).trans (seqLoop_effect hb)).trans (seqFlush_effect hc)).trans (seqEnd_effect c), rfl⟩

/-! How a command ends. -/

/-- What a fault may record: a cause that some command raises, and a nonzero word (10_state.md rules R36 and R37,
60_exceptions.md rule R186). -/
def Recordable (c : Cause) (w : CmdWord) : Prop := c ≠ .none ∧ c ≠ .ruleMalformed ∧ w ≠ 0

/-- The ways an accepted command ends: refused in the fault state; a fault; or completion, with SEQ IDLE again
(60_exceptions.md rules R188 and R190). -/
inductive Answered (s : State) : State → Prop where
  | refused (hf : s.fault = true) : Answered s (refuse s)
  | faulted (hf : s.fault = false) {c : Cause} {w : CmdWord} (hr : Recordable c w) : Answered s (raiseFault s c w)
  | completed {u : State} (d : Word) (effect : StorageEffect s u)
      (idle : s.seq.phase = .idle → u.seq.phase = .idle) : Answered s (respond u false d)

theorem violation_answered (s : State) {c : Cause} {w : CmdWord} (hr : Recordable c w) :
    Answered s (violation s c w) := by
  cases hf : s.fault with
  | true => rw [violation_faulted c w hf]; exact .refused hf
  | false => rw [violation_unfaulted c w hf]; exact .faulted hf hr

theorem checked_answered {s t u : State} {legal : Bool} {c : Cause} {w : CmdWord} {d : Word}
    (h : checked s legal c w (respond u false d) = .next t) (hr : Recordable c w)
    (effect : legal = true → StorageEffect s u) (hseq : u.seq = s.seq) : Answered s t := by
  obtain ⟨hf, rfl⟩ | ⟨hf, hl, rfl⟩ | ⟨hf, hl, rfl⟩ := checked_cases h
  · exact .refused hf
  · exact .completed d (effect hl) (fun hi => hseq ▸ hi)
  · exact .faulted hf hr

/-- A word with an opcode other than NOP's is not 0. -/
theorem packWord_ne_zero {op : BitVec 4} (hop : op ≠ 0) (b : Bool) (arg : Nat) : packWord op b arg ≠ 0 := by
  intro h
  have hfield := opField_packWord op b arg
  rw [h] at hfield
  exact hop (BitVec.eq_of_toNat_eq hfield.symm)

theorem recordable_packWord {c : Cause} {op : BitVec 4} {b : Bool} {arg : Nat}
    (h : c ≠ .none ∧ c ≠ .ruleMalformed ∧ op ≠ 0) : Recordable c (packWord op b arg) :=
  ⟨h.1, h.2.1, packWord_ne_zero h.2.2 b arg⟩

theorem isCell_pos_of_cellLegal {p : Params} {i : Nat} (h : cellLegal p i = true) : isCell p (pos p i) = true :=
  (isCell_pos p i).trans h

theorem execStep_answered {s t : State} (h : execStep s = .next t) : Answered s t := by
  unfold execStep at h
  split at h
  · next hf => cases h; exact .refused hf
  · split at h
    · next u hu =>
      cases h
      obtain ⟨effect, hidle⟩ := runSequencer_effect hu
      exact .completed 0 effect (fun _ => hidle)
    · exact nomatch h

theorem execRdreg_answered {r : Nat} {s t : State} (h : execRdreg r s = .next t) : Answered s t := by
  unfold execRdreg at h
  split at h
  · cases h; exact .completed _ (.refl s) id
  · cases h; exact violation_answered s (recordable_packWord (by decide))

/-- Every command ends in one of the three ways. -/
theorem exec_answered {i : Instr} {s t : State} (h : exec i s = .next t) : Answered s t := by
  cases i with
  | nop => cases h; exact .completed 0 (.refl s) id
  | read i => exact checked_answered h (recordable_packWord (by decide)) (fun _ => .refl s) rfl
  | flip i =>
    exact checked_answered h (recordable_packWord (by decide))
      (fun hl => flipAt_effect s (isCell_pos_of_cellLegal hl)) rfl
  | cflip i c =>
    exact checked_answered h (recordable_packWord (by decide))
      (fun hl => condFlipAt_effect s c (isCell_pos_of_cellLegal hl)) (condFlipAt_seq s _ c)
  | step => exact execStep_answered h
  | rdblk b => exact checked_answered h (recordable_packWord (by decide)) (fun _ => .refl s) rfl
  | wrblk b din => exact checked_answered h (recordable_packWord (by decide)) (fun _ => memWrite_effect s b din) rfl
  | rdreg r => exact execRdreg_answered h

theorem executeCommand_ok {c : Command} {i : Instr} (h : decode c.cmd c.din = .ok i) (s : State) :
    executeCommand c s = exec i s := by
  simp only [executeCommand, h]

theorem executeCommand_error {c : Command} {e : DecodeError} (h : decode c.cmd c.din = .error e) (s : State) :
    executeCommand c s = .next (violation s .illegalCmd c.cmd) := by
  simp only [executeCommand, h, illegalWord]

/-- The word 0 is NOP, so a word that spells no command is nonzero (42_control.md rule R170). -/
theorem decode_error_ne_zero {w : CmdWord} {din : Word} {e : DecodeError} (h : decode w din = .error e) : w ≠ 0 := by
  rintro rfl
  exact nomatch h

/-- Every accepted word ends in one of the three ways, whether it spells a command or not. -/
theorem executeCommand_answered {c : Command} {s t : State} (h : executeCommand c s = .next t) : Answered s t := by
  cases hd : decode c.cmd c.din with
  | ok i => exact exec_answered (executeCommand_ok hd s ▸ h)
  | error e =>
    rw [executeCommand_error hd] at h
    cases h
    exact violation_answered s ⟨by decide, by decide, decode_error_ne_zero hd⟩

end Sys2Proof.Machine
end

section
/-! State (10_state.md): the invariant, the configuration, STATUS and FINFO over a step, and the placing of a command. -/

namespace Sys2Proof.Machine

/-! The invariant. -/

/-- While FAULT = 1 the record in agreement is one that a fault can leave (10_state.md rules R36 and R37). -/
theorem faultRecordOk_of_faulted {s : State} (hf : s.fault = true) :
    s.faultRecordOk = true ↔ Recordable s.cause s.finfo := by
  simp [State.faultRecordOk, Recordable, hf, and_assoc]

theorem faultRecordOk_of_unfaulted {s : State} (hf : s.fault = false) :
    s.faultRecordOk = true ↔ s.cause = .none ∧ s.finfo = 0 := by
  simp [State.faultRecordOk, hf]

theorem raiseFault_faultRecordOk {s : State} {c : Cause} {w : CmdWord} (hf : s.fault = false)
    (hr : Recordable c w) : (raiseFault s c w).faultRecordOk = true := by
  rw [faultRecordOk_of_faulted (raiseFault_fault s c w)]
  simpa [hf] using hr

theorem resetBlock_inv (s : State) : (resetBlock s).inv = true :=
  (inv_iff _).mpr ⟨wf_nil s.cfg, rfl, rfl⟩

theorem Answered.inv {s t : State} (h : Answered s t) (hs : s.inv = true) : t.inv = true := by
  obtain ⟨hwf, hrec, hidle⟩ := (inv_iff s).mp hs
  cases h with
  | refused hf => exact hs
  | faulted hf hr =>
    refine (inv_iff _).mpr ⟨?_, raiseFault_faultRecordOk hf hr, ?_⟩
    · simpa using hwf
    · simpa using hidle
  | completed d effect idle =>
    obtain ⟨m, q, k, hm⟩ := effect
    exact (inv_iff _).mpr ⟨hm hwf, hrec, idle hidle⟩

/-- Settles O17: an idle step changes no field of the invariant, an accepted command ends in one of the ways of
`Answered`, and reset establishes the invariant anew. -/
theorem stepKeepsTheInvariant : Obligations.StepKeepsTheInvariant := by
  intro s t hs h
  obtain ⟨-, -, hstep⟩ | ⟨-, c, rest, -, hstep⟩ | ⟨-, -, hstep⟩ | ⟨-, -, hstep⟩ := step_cases s <;> rw [hstep] at h
  · cases h; exact hs
  · exact (executeCommand_answered h).inv hs
  · cases h; exact resetBlock_inv _
  · cases h; exact resetBlock_inv _

/-! STATUS, field by field (10_state.md rule R36). -/

theorem status_fault (s : State) : s.status.getLsbD 0 = s.fault := by
  simp only [State.status, BitVec.getLsbD_append]; simp

theorem status_reserved (s : State) : s.status.extractLsb' 1 3 = 0 := by
  rw [State.status, BitVec.extractLsb'_append_eq_of_add_le (by decide),
    BitVec.extractLsb'_append_eq_of_add_le (by decide), BitVec.extractLsb'_append_eq_of_add_le (by decide)]
  exact BitVec.extractLsb'_append_eq_left

theorem status_cause (s : State) : s.status.extractLsb' 4 4 = causeCode s.cause := by
  rw [State.status, BitVec.extractLsb'_append_eq_of_add_le (by decide),
    BitVec.extractLsb'_append_eq_of_add_le (by decide), BitVec.extractLsb'_append_eq_left]

theorem status_rule (s : State) : s.status.extractLsb' 8 8 = s.cfg.rule := by
  rw [State.status, BitVec.extractLsb'_append_eq_of_add_le (by decide), BitVec.extractLsb'_append_eq_left]

theorem status_high (s : State) : s.status.extractLsb' 16 16 = 0 := by
  rw [State.status, BitVec.extractLsb'_append_eq_left]; rfl

theorem causeCode_eq_zero_iff (c : Cause) : causeCode c = 0 ↔ c = .none := by
  cases c <;> decide

/-- Under the invariant the cause code is nonzero exactly while FAULT = 1. -/
theorem fault_iff_cause_of_inv {s : State} (hs : s.inv = true) : s.fault = true ↔ s.cause ≠ .none := by
  obtain ⟨-, hrec, -⟩ := (inv_iff s).mp hs
  cases hf : s.fault with
  | true => simp [((faultRecordOk_of_faulted hf).mp hrec).1]
  | false => simp [((faultRecordOk_of_unfaulted hf).mp hrec).1]

/-- Settles O43, field by field; the last clause is the invariant's fault record. -/
theorem statusHasItsFields : Obligations.StatusHasItsFields := by
  intro s
  refine ⟨status_fault s, rfl, status_reserved s, status_cause s, status_rule s, status_high s, fun hs => ?_⟩
  rw [status_cause, ne_eq, causeCode_eq_zero_iff, fault_iff_cause_of_inv hs]

/-! The configuration. -/

theorem Answered.cfg {s t : State} (h : Answered s t) : t.cfg = s.cfg := by
  cases h with
  | refused hf => rfl
  | faulted hf hr => exact raiseFault_cfg s _ _
  | completed d effect idle => cases effect; rfl

theorem step_cfg {s t : State} (h : step s = .next t) : t.cfg = s.cfg := by
  obtain ⟨-, -, hstep⟩ | ⟨-, c, rest, -, hstep⟩ | ⟨-, -, hstep⟩ | ⟨-, -, hstep⟩ := step_cases s <;> rw [hstep] at h
  · cases h; rfl
  · exact (executeCommand_answered h).cfg
  · cases h; rfl
  · cases h; rfl

/-- Settles O18: no part of a step writes the configuration, and STATUS[15:8] is its RULE. -/
theorem noStepChangesTheConfiguration : Obligations.NoStepChangesTheConfiguration :=
  fun _ t h => ⟨step_cfg h, (status_rule t).trans (congrArg Params.rule (step_cfg h))⟩

/-! The fault record. -/

/-- A command keeps STATUS and FINFO unless it records a fault (60_exceptions.md rules R187 and R188). -/
theorem Answered.record {s t : State} (h : Answered s t) :
    (t.status = s.status ∧ t.finfo = s.finfo) ∨ (s.fault = false ∧ t.fault = true ∧ t.rsp = some ⟨true, 0⟩) := by
  cases h with
  | refused hf => exact .inl ⟨rfl, rfl⟩
  | faulted hf hr => exact .inr ⟨hf, raiseFault_fault s _ _, raiseFault_rsp s _ _⟩
  | completed d effect idle => cases effect; exact .inl ⟨rfl, rfl⟩

/-- Settles O48: with `rst` low a step is idle or ends a command, and only a fault writes the record. -/
theorem onlyAFaultChangesTheRecord : Obligations.OnlyAFaultChangesTheRecord := by
  intro s t hlow h
  obtain ⟨-, -, hstep⟩ | ⟨-, c, rest, -, hstep⟩ | ⟨hhigh, -⟩ | ⟨hhigh, -⟩ := step_cases s
  · rw [hstep] at h; cases h; exact .inl ⟨rfl, rfl⟩
  · rw [hstep] at h; exact (executeCommand_answered h).record
  · exact absurd hlow (by simp [hhigh])
  · exact absurd hlow (by simp [hhigh])

/-! The placed command. -/

theorem decode_of_decodeTableWord {nbits w : Nat} {i : Instr} (h : decodeTableWord nbits w = some i) :
    decode (BitVec.ofNat 32 (w % 2 ^ nbits)) 0 = .ok i := by
  unfold decodeTableWord at h
  split at h
  · next hd => cases h; exact hd
  · exact nomatch h

/-- Settles O9: the placed word is offered, so the next step executes the command it decodes to. -/
theorem placedWordRunsNext : Obligations.PlacedWordRunsNext := by
  intro s nbits w i h
  have hd := decode_of_decodeTableWord h
  exact (step_offer s _).trans (executeCommand_ok (c := ⟨_, 0⟩) hd _)

end Sys2Proof.Machine
end

section
/-! Memory (20_memory.md): cells and their places, commands in order, which commands write the storage, and what a
read answers after a write. -/

namespace Sys2Proof.Machine

/-! The command interface: the oldest offered command, and what a step takes from the host (R66, R70). -/

theorem transact_of_decode {s : State} {c : Command} {rest : List Command} {i : Instr} (hcmds : s.cmds = c :: rest)
    (hdecode : decode c.cmd c.din = .ok i) : transact s = exec i (accepted s rest) := by
  simp only [transact, hcmds, executeCommand_ok hdecode]

theorem step_of_rstIn_nil {s : State} (h : s.rstIn = []) : step s = transact s := by
  simp only [step, hostStep, h]

theorem step_of_rstIn_low {s : State} {later : List RstEvent} (h : s.rstIn = .low :: later) :
    step s = transact { s with rstIn := later } := by
  simp only [step, hostStep, h]

/-- Settles O8: with `rst` low, for good or in this step alone, the step is a transaction, and that runs the command
which the oldest offered word decodes to. -/
theorem stepRunsTheDecodedCommand : Obligations.StepRunsTheDecodedCommand := by
  intro s c rest i hcmds hdecode
  constructor
  · intro hrst
    exact (step_of_rstIn_nil hrst).trans (transact_of_decode hcmds hdecode)
  · intro later hrst
    exact (step_of_rstIn_low hrst).trans (transact_of_decode hcmds hdecode)

/-- A command's end leaves what the host will do next as it was: the commands still offered and the coming levels of
`rst`. -/
theorem Answered.host {s t : State} (h : Answered s t) : t.cmds = s.cmds ∧ t.rstIn = s.rstIn := by
  cases h with
  | refused hf => exact ⟨rfl, rfl⟩
  | faulted hf hr => exact ⟨raiseFault_cmds s _ _, raiseFault_rstIn s _ _⟩
  | completed d effect idle => cases effect; exact ⟨rfl, rfl⟩

/-- Settles O10: the step itself takes the oldest command and one level of `rst`; neither the command's end nor reset
touches what the host still offers. -/
theorem commandsAreAcceptedInOrder : Obligations.CommandsAreAcceptedInOrder := by
  intro s t h
  obtain ⟨-, hcmds, hstep⟩ | ⟨hlow, c, rest, hcmds, hstep⟩ | ⟨hlow, -, hstep⟩ | ⟨hlow, ⟨_, hrst⟩, hstep⟩ :=
    step_cases s <;> rw [hstep] at h
  · cases h
    exact ⟨rfl, fun _ => by simp [hcmds], fun _ _ => rfl⟩
  · obtain ⟨htcmds, htrst⟩ := (executeCommand_answered h).host
    exact ⟨htrst, fun _ => by simp [htcmds, hcmds], fun later hhigh => by simp [State.rstLow, hhigh] at hlow⟩
  · cases h
    exact ⟨rfl, fun hlow' => by simp [hlow] at hlow', fun _ _ => rfl⟩
  · cases h
    exact ⟨rfl, fun hlow' => by simp [hlow] at hlow', fun later hhigh => by simp [hrst] at hhigh⟩

/-! Where cells lie (R61). -/

/-- Settles O30: `pos` has `isCell` for its range and is injective; a bit of the storage holds a cell unless it is one
of the low bits of the last block. -/
theorem cellsAndBitsCorrespond : Obligations.CellsAndBitsCorrespond := by
  intro p
  refine ⟨fun i hi => ?_, fun i j _ _ => pos_injective p, fun q hblk hbit hlow => ?_⟩
  · have hcell : isCell p (pos p i) = true := (isCell_iff p _).mpr ⟨i, hi, rfl⟩
    have hblk := isCell_blk_lt p _ hcell
    have hbit := pos_bit_lt p i
    exact ⟨hblk, hbit, (isCell_iff_not_low p _ _ hblk hbit).mp hcell⟩
  · obtain ⟨i, hi, hq⟩ := (isCell_iff p q).mp ((isCell_iff_not_low p _ _ hblk hbit).mpr hlow)
    exact ⟨i, hi, hq.symm⟩

/-! The storage under the commands that do not write it (R65, R67). -/

/-- A checked command whose effect keeps the storage keeps it on every path. -/
theorem checked_mem {s t effect : State} {legal : Bool} {c : Cause} {w : CmdWord}
    (h : checked s legal c w effect = .next t) (heffect : effect.mem = s.mem) : t.mem = s.mem := by
  obtain ⟨-, rfl⟩ | ⟨-, -, rfl⟩ | ⟨-, -, rfl⟩ := checked_cases h
  · exact refuse_mem s
  · exact heffect
  · exact raiseFault_mem s c w

theorem execRdreg_mem {r : Nat} {s t : State} (h : execRdreg r s = .next t) : t.mem = s.mem := by
  unfold execRdreg at h
  split at h
  · cases h; rfl
  · cases h; exact violation_mem s _ _

theorem exec_mem_of_not_writesStorage {i : Instr} {s t : State} (hi : writesStorage i = false)
    (h : exec i s = .next t) : t.mem = s.mem := by
  cases i with
  | nop => cases h; rfl
  | read i => exact checked_mem h rfl
  | rdblk b => exact checked_mem h rfl
  | rdreg r => exact execRdreg_mem h
  | flip i => exact nomatch hi
  | cflip i c => exact nomatch hi
  | step => exact nomatch hi
  | wrblk b din => exact nomatch hi

/-- Every storage bit is a function of the configuration and the list of written blocks. -/
theorem bitAt_congr {s t : State} (hcfg : t.cfg = s.cfg) (hmem : t.mem = s.mem) (q : Pos) : t.bitAt q = s.bitAt q := by
  simp only [State.bitAt, State.blk, hcfg, hmem]

/-- Settles O27: NOP, READ, RDBLK and RDREG keep the list of written blocks, whether they complete, fault or are
refused, and no command changes the configuration. -/
theorem onlyWritingCommandsChangeTheStorage : Obligations.OnlyWritingCommandsChangeTheStorage := by
  intro i s t hi h
  have hmem := exec_mem_of_not_writesStorage hi h
  exact ⟨hmem, bitAt_congr (exec_answered h).cfg hmem⟩

/-! The cell and block commands while FAULT = 0 and their index is legal (40_bitfield.md). -/

theorem exec_read_legal {s : State} {i : Nat} (hf : s.fault = false) (hi : i < s.cfg.n) :
    exec (.read i) s = .next (respond s false (bitData (s.cell i))) :=
  checked_ok _ _ _ hf (decide_eq_true hi)

theorem exec_flip_legal {s : State} {i : Nat} (hf : s.fault = false) (hi : i < s.cfg.n) :
    exec (.flip i) s = .next (respond (flipAt s (pos s.cfg i)) false 0) :=
  checked_ok _ _ _ hf (decide_eq_true hi)

theorem exec_rdblk_legal {s : State} {b : Nat} (hf : s.fault = false) (hb : b < nb s.cfg) :
    exec (.rdblk b) s = .next (respond s false (s.blk b)) :=
  checked_ok _ _ _ hf (decide_eq_true hb)

theorem exec_wrblk_legal {s : State} {b : Nat} (d : Word) (hf : s.fault = false) (hb : b < nb s.cfg) :
    exec (.wrblk b d) s = .next (respond (memWrite s b d) false 0) :=
  checked_ok _ _ _ hf (decide_eq_true hb)

/-! A read after a write (R70, R102). -/

theorem read_after_flip {s : State} {i : Nat} (hf : s.fault = false) (hi : i < s.cfg.n) :
    ∃ t u, exec (.flip i) s = .next t ∧ exec (.read i) t = .next u ∧
      u.rsp = some ⟨false, if s.cell i then 0 else 1⟩ := by
  refine ⟨_, _, exec_flip_legal hf hi, exec_read_legal hf hi, ?_⟩
  cases hc : s.cell i <;> simp [flipAt_cell, bitData, hc]

theorem rdblk_after_wrblk {s : State} {b : Nat} (d : Word) (hf : s.fault = false) (hb : b < nb s.cfg) :
    ∃ t u, exec (.wrblk b d) s = .next t ∧ exec (.rdblk b) t = .next u ∧
      u.rsp = some ⟨false, d &&& cellMask s.cfg b⟩ := by
  refine ⟨_, _, exec_wrblk_legal d hf hb, exec_rdblk_legal hf hb, ?_⟩
  simp [memWrite_blk]

/-- Settles O26: FLIP leaves the complement of its cell and WRBLK the data under the cell mask, and neither leaves a
fault that would keep the read from completing. -/
theorem readSeesTheLatestWrite : Obligations.ReadSeesTheLatestWrite :=
  ⟨fun _ _ hf hi => read_after_flip hf hi, fun _ _ d hf hb => rdblk_after_wrblk d hf hb⟩

end Sys2Proof.Machine
end

section
/-! Encoding (30_encoding.md): the word of a command, what a word decodes to, and which words a row of the opcode map
accepts. -/

namespace Sys2Proof

/-! Decoding the word of a command (R83 to R86). -/

/-- The command with `din` for the data that travels beside its word: WRBLK's data word, and nothing in any other
command (R91). -/
def Instr.withDin (din : Word) : Instr → Instr
  | .wrblk b _ => .wrblk b din
  | i => i

@[simp] theorem withDin_encodeDin (i : Instr) : i.withDin (encodeDin i) = i := by
  cases i <;> rfl

@[simp] theorem withDin_row (din : Word) (i : Instr) : (i.withDin din).row = i.row := by
  cases i <;> rfl

theorem fitsArg_iff (x : Nat) : fitsArg x = true ↔ x < 16777216 := decide_eq_true_iff

theorem decodePlain_packWord (op : BitVec 4) (i : Instr) : decodePlain (packWord op false 0) i = .ok i := by
  simp [decodePlain, condField_packWord, argField_packWord]

theorem argField_packWord_of_fits (op : BitVec 4) (c : Bool) {x : Nat} (hx : fitsArg x = true) :
    argField (packWord op c x) = x := by
  rw [argField_packWord, Nat.mod_eq_of_lt ((fitsArg_iff x).mp hx)]

theorem decodeIndexed_packWord (op : BitVec 4) {x : Nat} (mk : Nat → Instr) (hx : fitsArg x = true) :
    decodeIndexed (packWord op false x) mk = .ok (mk x) := by
  simp [decodeIndexed, condField_packWord, argField_packWord_of_fits op false hx]

/-- The word of a command decodes to that command, with `din` for the data. -/
theorem decode_encodeWord {i : Instr} (hi : i.wellFormed = true) (din : Word) :
    decode (encodeWord i) din = .ok (i.withDin din) := by
  cases i with simp only [encodeWord, decode, rsvField_packWord, opField_packWord, if_true]
  | nop => exact decodePlain_packWord _ _
  | step => exact decodePlain_packWord _ _
  | cflip x c => simp [condField_packWord, argField_packWord_of_fits _ c hi, Instr.withDin]
  | read x => exact decodeIndexed_packWord _ _ hi
  | flip x => exact decodeIndexed_packWord _ _ hi
  | rdblk x => exact decodeIndexed_packWord _ _ hi
  | wrblk x d => exact decodeIndexed_packWord _ _ hi
  | rdreg x => exact decodeIndexed_packWord _ _ hi

/-- Settles O1: the data word that travels with the command is its own. -/
theorem decodeOfEncode : Obligations.DecodeOfEncode := by
  intro i hi
  rw [decode_encodeWord hi, withDin_encodeDin]

/-- Settles O5: each word is the encoding of the command that the vector names. -/
theorem specWordsDecode : Obligations.SpecWordsDecode := fun din =>
  ⟨decode_encodeWord (i := .read 22) rfl din, decode_encodeWord (i := .flip 23) rfl din,
    decode_encodeWord (i := .cflip 22 false) rfl din, decode_encodeWord (i := .cflip 22 true) rfl din,
    decode_encodeWord (i := .step) rfl din, decode_encodeWord (i := .rdblk 2) rfl din,
    decode_encodeWord (i := .wrblk 2 0) rfl din, decode_encodeWord (i := .rdreg 4) rfl din,
    decode_encodeWord (i := .nop) rfl din⟩

/-- Settles O7: a command assembles exactly if its operands fit, and then to the word and data that decode to it. -/
theorem assemblyRefusesOperandsThatDoNotFit : Obligations.AssemblyRefusesOperandsThatDoNotFit :=
  fun i => ⟨Machine.assemble_illFormed,
    fun hi => ⟨Machine.commandOf i, Machine.assemble_wellFormed hi, decodeOfEncode i hi⟩⟩

/-! The word of a decoded command (R86). -/

/-- A word with RSV = 0 is packed from its own fields. -/
theorem packWord_of_fields {w : CmdWord} {op : BitVec 4} {c : Bool} {x : Nat} (hrsv : rsvField w = 0)
    (hop : opField w = op.toNat) (hc : condField w = c) (hx : argField w = x) : packWord op c x = w := by
  have hop : w.extractLsb' 28 4 = op := BitVec.eq_of_toNat_eq hop
  rw [← hop, ← hc, ← hx]
  exact packWord_fields w hrsv

theorem fitsArg_argField (w : CmdWord) : fitsArg (argField w) = true :=
  (fitsArg_iff _).mpr (argField_lt w)

/-- Settles O2: each answer of the decoder names the fields of the word, which is packed from them. -/
theorem encodeOfDecode : Obligations.EncodeOfDecode := by
  intro w din i h
  obtain ⟨hrsv, h⟩ := decode_ok_cases h
  obtain ⟨hop, hc, hx, rfl⟩ | ⟨hop, hc, rfl⟩ | ⟨hop, hc, rfl⟩ | ⟨hop, rfl⟩ | ⟨hop, hc, hx, rfl⟩ | ⟨hop, hc, rfl⟩ |
    ⟨hop, hc, rfl⟩ | ⟨hop, hc, rfl⟩ := h <;> simp only [hop]
  · exact ⟨packWord_of_fields hrsv hop hc hx, rfl, rfl⟩
  · exact ⟨packWord_of_fields hrsv hop hc rfl, fitsArg_argField w, rfl⟩
  · exact ⟨packWord_of_fields hrsv hop hc rfl, fitsArg_argField w, rfl⟩
  · exact ⟨packWord_of_fields hrsv hop rfl rfl, fitsArg_argField w, rfl⟩
  · exact ⟨packWord_of_fields hrsv hop hc hx, rfl, rfl⟩
  · exact ⟨packWord_of_fields hrsv hop hc rfl, fitsArg_argField w, rfl⟩
  · exact ⟨packWord_of_fields hrsv hop hc rfl, fitsArg_argField w, rfl⟩
  · exact ⟨packWord_of_fields hrsv hop hc rfl, fitsArg_argField w, rfl⟩

/-! The rows of the opcode map (R85, R86). -/

/-- A field that lies in a row's mask holds the row's bits in every word that the row accepts. -/
theorem extractLsb'_of_accepts {r : OpcodeRow} {w : CmdWord} (h : r.accepts w = true) {start len : Nat}
    (hm : r.mask.extractLsb' start len = BitVec.allOnes len) :
    w.extractLsb' start len = r.pattern.extractLsb' start len := by
  have hw : w &&& r.mask = r.pattern := beq_iff_eq.mp h
  rw [← hw, BitVec.extractLsb'_and, hm, BitVec.and_allOnes]

/-- Every row's mask covers OP and RSV. -/
theorem mask_covers_op_rsv : ∀ r ∈ opcodeTable,
    r.mask.extractLsb' 28 4 = BitVec.allOnes 4 ∧ r.mask.extractLsb' 24 3 = BitVec.allOnes 3 := by decide

theorem opField_of_accepts {r : OpcodeRow} {w : CmdWord} (hr : r ∈ opcodeTable) (h : r.accepts w = true) :
    opField w = opField r.pattern :=
  congrArg BitVec.toNat (extractLsb'_of_accepts h (mask_covers_op_rsv r hr).1)

theorem rsvField_of_accepts {r : OpcodeRow} {w : CmdWord} (hr : r ∈ opcodeTable) (h : r.accepts w = true) :
    rsvField w = rsvField r.pattern :=
  congrArg BitVec.toNat (extractLsb'_of_accepts h (mask_covers_op_rsv r hr).2)

/-- The mask of every row but CFLIP's covers C. -/
theorem condField_of_accepts {r : OpcodeRow} {w : CmdWord} (h : r.accepts w = true) (hm : condField r.mask = true) :
    condField w = condField r.pattern := by
  have hw : w &&& r.mask = r.pattern := beq_iff_eq.mp h
  unfold condField at hm ⊢
  rw [← hw, BitVec.getLsbD_and, hm, Bool.and_true]

/-- The mask of a row without operands covers ARG. -/
theorem argField_of_accepts {r : OpcodeRow} {w : CmdWord} (h : r.accepts w = true)
    (hm : r.mask.extractLsb' 0 24 = BitVec.allOnes 24) : argField w = argField r.pattern :=
  congrArg BitVec.toNat (extractLsb'_of_accepts h hm)

/-- The OP field differs between rows. -/
theorem row_eq_of_opField_eq : ∀ r ∈ opcodeTable, ∀ r' ∈ opcodeTable,
    opField r.pattern = opField r'.pattern → r = r' := by decide

theorem row_mem_opcodeTable (i : Instr) : i.row ∈ opcodeTable := by
  cases i <;> simp [opcodeTable, Instr.row]

theorem row_accepts_encodeWord (i : Instr) : i.row.accepts (encodeWord i) = true :=
  match i with
  | .nop => Laws.MatchesRow.nop
  | .read x => Laws.MatchesRow.read x
  | .flip x => Laws.MatchesRow.flip x
  | .cflip x c => Laws.MatchesRow.cflip x c
  | .step => Laws.MatchesRow.step
  | .rdblk x => Laws.MatchesRow.rdblk x
  | .wrblk x d => Laws.MatchesRow.wrblk x d
  | .rdreg x => Laws.MatchesRow.rdreg x

theorem exists_encodeWord_of_accepts {r : OpcodeRow} {w : CmdWord} (hr : r ∈ opcodeTable) (h : r.accepts w = true) :
    ∃ i : Instr, i.wellFormed = true ∧ encodeWord i = w ∧ i.row = r := by
  have hop := opField_of_accepts hr h
  have hrsv := rsvField_of_accepts hr h
  have hfits := fitsArg_argField w
  simp only [opcodeTable, List.mem_cons, List.not_mem_nil, or_false] at hr
  obtain rfl | rfl | rfl | rfl | rfl | rfl | rfl | rfl := hr
  · exact ⟨.nop, rfl, packWord_of_fields hrsv hop (condField_of_accepts h rfl) (argField_of_accepts h rfl), rfl⟩
  · exact ⟨.read (argField w), hfits, packWord_of_fields hrsv hop (condField_of_accepts h rfl) rfl, rfl⟩
  · exact ⟨.flip (argField w), hfits, packWord_of_fields hrsv hop (condField_of_accepts h rfl) rfl, rfl⟩
  · exact ⟨.cflip (argField w) (condField w), hfits, packWord_of_fields hrsv hop rfl rfl, rfl⟩
  · exact ⟨.step, rfl, packWord_of_fields hrsv hop (condField_of_accepts h rfl) (argField_of_accepts h rfl), rfl⟩
  · exact ⟨.rdblk (argField w), hfits, packWord_of_fields hrsv hop (condField_of_accepts h rfl) rfl, rfl⟩
  · exact ⟨.wrblk (argField w) 0, hfits, packWord_of_fields hrsv hop (condField_of_accepts h rfl) rfl, rfl⟩
  · exact ⟨.rdreg (argField w), hfits, packWord_of_fields hrsv hop (condField_of_accepts h rfl) rfl, rfl⟩

/-- A word spells a command of the row that accepts it. -/
theorem decode_of_accepts {r : OpcodeRow} {w : CmdWord} (din : Word) (hr : r ∈ opcodeTable)
    (h : r.accepts w = true) : ∃ i, decode w din = .ok i ∧ i.row = r := by
  obtain ⟨i, hi, rfl, hrow⟩ := exists_encodeWord_of_accepts hr h
  exact ⟨i.withDin din, decode_encodeWord hi din, (withDin_row din i).trans hrow⟩

/-- A word that spells a command is accepted by that command's row. -/
theorem row_accepts_of_decode {w : CmdWord} {din : Word} {i : Instr} (h : decode w din = .ok i) :
    i.row.accepts w = true := by
  obtain ⟨hword, -, -⟩ := encodeOfDecode w din i h
  exact hword ▸ row_accepts_encodeWord i

end Sys2Proof

namespace Sys2Proof.Machine

/-! Words that spell no command (R86 to R88). -/

/-- While FAULT = 0 a word that spells no command raises ILLEGAL_CMD (60_exceptions.md rules R182 and R188). -/
theorem executeCommand_undecodable {w : CmdWord} {din : Word} {s : State} (hf : s.fault = false)
    (h : ∀ i, decode w din ≠ .ok i) :
    executeCommand ⟨w, din⟩ s =
      .next { s with fault := true, cause := .illegalCmd, finfo := w, rsp := some ⟨true, 0⟩ } := by
  cases hd : decode w din with
  | ok i => exact absurd hd (h i)
  | error e => rw [executeCommand_error (c := ⟨w, din⟩) hd, violation_unfaulted _ _ hf, raiseFault_unfaulted _ _ hf]

/-- Settles O3: a row fixes the fields of the words it accepts, so each is the word of a command of that row, and OP
tells the rows apart. -/
theorem wordSpellsTheRowItMatches : Obligations.WordSpellsTheRowItMatches := by
  refine ⟨fun w din r => decode_of_accepts din, fun w r r' hr hr' h h' => ?_, fun w din s hf hnone => ?_, fun din => ?_⟩
  · exact row_eq_of_opField_eq r hr r' hr' ((opField_of_accepts hr h).symm.trans (opField_of_accepts hr' h'))
  · refine executeCommand_undecodable hf fun i hd => ?_
    exact absurd (row_accepts_of_decode hd) (by simp [hnone _ (row_mem_opcodeTable i)])
  · exact ⟨decode_encodeWord (i := .nop) rfl din, decode_encodeWord (i := .step) rfl din, by decide⟩

/-- The fields of a word that spells a command (R87, R88). -/
theorem fields_of_decode {w : CmdWord} {din : Word} {i : Instr} (h : decode w din = .ok i) :
    rsvField w = 0 ∧ opField w < 8 ∧ (condField w = true → opField w = 3) ∧
      (opField w = 0 ∨ opField w = 4 → argField w = 0) := by
  obtain ⟨hrsv, h⟩ := decode_ok_cases h
  refine ⟨hrsv, ?_⟩
  obtain ⟨hop, hc, hx, -⟩ | ⟨hop, hc, -⟩ | ⟨hop, hc, -⟩ | ⟨hop, -⟩ | ⟨hop, hc, hx, -⟩ | ⟨hop, hc, -⟩ |
    ⟨hop, hc, -⟩ | ⟨hop, hc, -⟩ := h <;> simp [*]

/-- Bit 31 is the top bit of OP. -/
theorem getLsbD_31_of_opField_lt {w : CmdWord} (h : opField w < 8) : w.getLsbD 31 = false := by
  have htop : (w.extractLsb' 28 4).getLsbD 3 = false := Nat.testBit_lt_two_pow h
  simpa using htop

/-- Settles O4: each of the four forms contradicts the fields of a word that spells a command. -/
theorem reservedAndMalformedWordsRaiseIllegalCmd : Obligations.ReservedAndMalformedWordsRaiseIllegalCmd := by
  intro w din s hf hbad
  refine executeCommand_undecodable hf fun i hd => ?_
  obtain ⟨hrsv, hop, hcond, harg⟩ := fields_of_decode hd
  obtain h31 | h | ⟨hc, h⟩ | ⟨hplain, h⟩ := hbad
  · rw [getLsbD_31_of_opField_lt hop] at h31; exact nomatch h31
  · exact h (BitVec.eq_of_toNat_eq hrsv)
  · exact h (BitVec.eq_of_toNat_eq (hcond hc))
  · exact h (BitVec.eq_of_toNat_eq (harg (hplain.imp (congrArg BitVec.toNat) (congrArg BitVec.toNat))))

/-! The data word (R91). -/

theorem decode_ignores_din {w : CmdWord} (d d' : Word) (h : opField w ≠ 6) : decode w d = decode w d' := by
  unfold decode
  split
  · split
    case h_7 h6 => exact absurd h6 h
    all_goals rfl
  · rfl

theorem isCell_bit_lt {p : Params} {q : Pos} (h : isCell p q = true) : q.bit < p.w := by
  obtain ⟨i, -, rfl⟩ := (isCell_iff p q).mp h
  exact pos_bit_lt p i

/-- The mask of a block keeps none of the bits from W up. -/
theorem and_cellMask_congr {p : Params} {d d' : Word} (b : Nat)
    (h : ∀ k, k < p.w → d.getLsbD k = d'.getLsbD k) : d &&& cellMask p b = d' &&& cellMask p b := by
  apply BitVec.eq_of_getLsbD_eq
  intro k _
  rw [BitVec.getLsbD_and, BitVec.getLsbD_and, getLsbD_cellMask]
  cases hcell : isCell p ⟨b, k⟩ with
  | false => simp
  | true => rw [h k (isCell_bit_lt hcell)]

theorem exec_wrblk_congr {s : State} {d d' : Word} (b : Nat)
    (h : ∀ k, k < s.cfg.w → d.getLsbD k = d'.getLsbD k) : exec (.wrblk b d) s = exec (.wrblk b d') s := by
  simp only [exec, execWrblk, memWrite, and_cellMask_congr b h, encodeWord]

theorem getLsbD_memWrite_blk (s : State) (b k : Nat) (v : Word) :
    ((memWrite s b v).blk b).getLsbD k = (v.getLsbD k && isCell s.cfg ⟨b, k⟩) := by
  rw [memWrite_blk, if_pos rfl, BitVec.getLsbD_and, getLsbD_cellMask]

theorem memWrite_cell_of_block (s : State) (b : Nat) (v : Word) {j : Nat} (hj : j < s.cfg.w)
    (hcell : b * s.cfg.w + j < s.cfg.n) :
    (memWrite s b v).cell (b * s.cfg.w + j) = v.getLsbD (s.cfg.w - 1 - j) := by
  have hpos := pos_of_block s.cfg b j hj
  have hmask : isCell s.cfg ⟨b, s.cfg.w - 1 - j⟩ = true := by rw [← hpos, isCell_pos]; exact decide_eq_true hcell
  rw [State.cell, memWrite_cfg, hpos, State.bitAt, getLsbD_memWrite_blk, hmask, Bool.and_true]

theorem isCell_of_isPadding {p : Params} {q : Pos} (h : isPadding p q = true) : isCell p q = false := by
  simp only [isPadding, Bool.and_eq_true, Bool.not_eq_true'] at h
  exact h.2

/-- Settles O6: only the arm of OP = 6 hands on `din`, and a block is written through the mask of its cells. -/
theorem dinIsTheBlockWordAndElseIgnored : Obligations.DinIsTheBlockWordAndElseIgnored := by
  refine ⟨fun w d d' => decode_ignores_din d d', fun s b d d' => exec_wrblk_congr b, fun s b d hf hb => ?_⟩
  refine ⟨_, exec_wrblk_legal d hf hb, fun j hj hcell => ?_, fun k hpad => ?_⟩
  · rw [respond_cell, memWrite_cell_of_block s b d hj hcell]
  · rw [respond_blk, getLsbD_memWrite_blk, isCell_of_isPadding hpad, Bool.and_false]

end Sys2Proof.Machine
end

section
/-! Encoding (30_encoding.md), the command interface: every command is answered, a program gets its responses, and
SETV sets its cell. -/

namespace Sys2Proof.Machine

/-! The sequencer answers from every state (41_step.md rules R133 to R138). -/

/-- The sequencer's window lies on the indices k, k+1 and k+2, I is the next one, and only the right end of the window
may lie one past the row (R133, R136, R145). -/
structure WindowAt (s : State) (k : Nat) : Prop where
  inRow : k + 2 ≤ s.cfg.n
  i : s.seq.regs.i = k + 3
  wl : s.seq.regs.wl = pos s.cfg k
  wc : s.seq.regs.wc = pos s.cfg (k + 1)
  wr : s.seq.regs.wr = pos s.cfg (k + 2)

theorem seqStart_answers (s : State) : ∃ t, seqStart s = .ok t ∧ WindowAt t 0 := by
  have hn := three_le_n s.cfg
  exact ⟨_, seqStart_eq s, ⟨by rw [setSeq_cfg]; omega, rfl, rfl, rfl, rfl⟩⟩

/-- An iteration moves the window by one cell. -/
theorem seqIter_answers {s : State} {k : Nat} (h : WindowAt s k) (hi : s.seq.regs.i ≤ s.cfg.n) :
    ∃ t, seqIter s = .ok t ∧ WindowAt t (k + 1) := by
  obtain ⟨-, hik, hwl, hwc, hwr⟩ := h
  refine ⟨_, seqIter_eq s k hwl hwc hwr (by omega), ?_⟩
  exact ⟨by rw [setSeq_cfg, condFlipAt_cfg]; omega, by simp [hik], by simp, by simp, by simp [hik]⟩

theorem seqLoop_answers (fuel : Nat) {s : State} {k : Nat} (h : WindowAt s k) :
    ∃ t j, seqLoop fuel s = .ok t ∧ WindowAt t j := by
  induction fuel generalizing s k with
  | zero => exact ⟨s, k, rfl, h⟩
  | succ fuel ih =>
    simp only [seqLoop]
    split
    · next hi =>
      obtain ⟨t, ht, hwin⟩ := seqIter_answers h hi
      rw [ht]
      exact ih hwin
    · exact ⟨s, k, rfl, h⟩

theorem seqFlush_answers {s : State} {k : Nat} (h : WindowAt s k) : ∃ t, seqFlush s = .ok t := by
  have hrow := h.inRow
  exact ⟨_, seqFlush_eq s k h.wl (by omega)⟩

theorem runSequencer_answers (s : State) : ∃ t, runSequencer s = .ok t := by
  obtain ⟨a, ha, hwin⟩ := seqStart_answers s
  obtain ⟨b, j, hb, hwin⟩ := seqLoop_answers s.cfg.n hwin
  obtain ⟨c, hc⟩ := seqFlush_answers hwin
  exact ⟨seqEnd c, by simp only [runSequencer, ha, hb, hc, bind, Except.bind, pure, Except.pure]⟩

/-! Every command, word and step is answered (R82, R219). -/

theorem checked_answers (s : State) (legal : Bool) (c : Cause) (w : CmdWord) (effect : State) :
    ∃ t, checked s legal c w effect = .next t := by
  unfold checked
  split
  · exact ⟨_, rfl⟩
  · split <;> exact ⟨_, rfl⟩

theorem execStep_answers (s : State) : ∃ t, execStep s = .next t := by
  obtain ⟨u, hu⟩ := runSequencer_answers s
  unfold execStep
  rw [hu]
  split <;> exact ⟨_, rfl⟩

theorem execRdreg_answers (r : Nat) (s : State) : ∃ t, execRdreg r s = .next t := by
  unfold execRdreg
  split <;> exact ⟨_, rfl⟩

theorem exec_answers (i : Instr) (s : State) : ∃ t, exec i s = .next t :=
  match i with
  | .nop => ⟨_, rfl⟩
  | .read _ => checked_answers s _ _ _ _
  | .flip _ => checked_answers s _ _ _ _
  | .cflip _ _ => checked_answers s _ _ _ _
  | .step => execStep_answers s
  | .rdblk _ => checked_answers s _ _ _ _
  | .wrblk _ _ => checked_answers s _ _ _ _
  | .rdreg r => execRdreg_answers r s

/-- A command's end presents its response, with data 0 where the error bit is 1. -/
theorem Answered.response {s t : State} (h : Answered s t) :
    ∃ r : Response, t.rsp = some r ∧ (r.err = true → r.data = 0) := by
  cases h with
  | refused hf => exact ⟨_, refuse_rsp s, fun _ => rfl⟩
  | faulted hf hr => exact ⟨_, raiseFault_rsp s _ _, fun _ => rfl⟩
  | completed d effect idle => exact ⟨_, respond_rsp _ false d, fun h => nomatch h⟩

theorem executeCommand_answers (c : Command) (s : State) :
    ∃ t, executeCommand c s = .next t ∧ ∃ r : Response, t.rsp = some r ∧ (r.err = true → r.data = 0) := by
  have hnext : ∃ t, executeCommand c s = .next t := by
    cases hd : decode c.cmd c.din with
    | ok i => rw [executeCommand_ok hd]; exact exec_answers i s
    | error e => exact ⟨_, executeCommand_error hd s⟩
  obtain ⟨t, ht⟩ := hnext
  exact ⟨t, ht, (executeCommand_answered ht).response⟩

/-- Settles O11: an idle step and a step under reset answer at once, and any other one executes a command. -/
theorem everyStepAnswers : Obligations.EveryStepAnswers := by
  intro s
  obtain ⟨-, hcmds, hstep⟩ | ⟨-, c, rest, -, hstep⟩ | ⟨hhigh, -, hstep⟩ | ⟨hhigh, -, hstep⟩ := step_cases s
  · exact ⟨_, hstep, fun _ hne => absurd hcmds hne⟩
  · obtain ⟨t, ht, hrsp⟩ := executeCommand_answers c _
    exact ⟨t, hstep.trans ht, fun _ _ => hrsp⟩
  · exact ⟨_, hstep, fun hlow => absurd hlow (by simp [hhigh])⟩
  · exact ⟨_, hstep, fun hlow => absurd hlow (by simp [hhigh])⟩

/-! Host programs (R220). -/

/-- A program whose first command is answered runs the rest in the state that the command left. -/
theorem runProgram_cons {c : Command} {s t : State} {r : Response}
    (ht : executeCommand c (accepted s s.cmds) = .next t) (hr : t.rsp = some r) (cs : List Command) :
    runProgram (c :: cs) s = (runProgram cs t).map (fun o => (r :: o.1, o.2)) := by
  have hstep : step (offer s c) = .next t := ht
  simp only [runProgram, hstep, hr]

/-- Settles O12: each command in turn is answered, whatever state the one before left. -/
theorem programGetsOneResponsePerCommand : Obligations.ProgramGetsOneResponsePerCommand := by
  intro prog
  induction prog with
  | nil => exact fun s => ⟨[], s, rfl, rfl⟩
  | cons c cs ih =>
    intro s
    obtain ⟨t, ht, r, hr, -⟩ := executeCommand_answers c (accepted s s.cmds)
    obtain ⟨rs, u, hrun, hlen⟩ := ih t
    refine ⟨r :: rs, u, ?_, congrArg Nat.succ hlen⟩
    rw [runProgram_cons ht hr, hrun, Option.map_some]

/-! SETV (R93). -/

theorem runAssembled_single {i : Instr} (hi : i.wellFormed = true) {s t : State} {r : Response}
    (ht : exec i (accepted s s.cmds) = .next t) (hr : t.rsp = some r) : runAssembled [i] s = some ([r], t) := by
  have hd : decode (commandOf i).cmd (commandOf i).din = .ok i := decodeOfEncode i hi
  rw [runAssembled_wellFormed (by simpa using hi)]
  exact runProgram_cons ((executeCommand_ok hd _).trans ht) hr []

theorem exec_cflip_legal {s : State} {i : Nat} (c : Bool) (hf : s.fault = false) (hi : i < s.cfg.n) :
    exec (.cflip i c) s = .next (respond (condFlipAt s (pos s.cfg i) c) false 0) :=
  checked_ok _ _ _ hf (decide_eq_true hi)

theorem fitsArg_of_lt_n {p : Params} {i : Nat} (hi : i < p.n) : fitsArg i = true :=
  (fitsArg_iff i).mpr (hi.trans_le (n_le p))

theorem runAssembled_read {s : State} {i : Nat} (hf : s.fault = false) (hi : i < s.cfg.n) :
    runAssembled [.read i] s =
      some ([⟨false, bitData (s.cell i)⟩], respond (accepted s s.cmds) false (bitData (s.cell i))) :=
  runAssembled_single (i := .read i) (fitsArg_of_lt_n hi) (exec_read_legal (s := accepted s s.cmds) hf hi) rfl

theorem runAssembled_cflip {s : State} {i : Nat} (c : Bool) (hf : s.fault = false) (hi : i < s.cfg.n) :
    runAssembled [.cflip i c] s =
      some ([⟨false, 0⟩], respond (condFlipAt (accepted s s.cmds) (pos s.cfg i) c) false 0) :=
  runAssembled_single (i := .cflip i c) (fitsArg_of_lt_n hi) (exec_cflip_legal (s := accepted s s.cmds) c hf hi) rfl

@[simp] theorem getLsbD_bitData (v : Bool) : (bitData v).getLsbD 0 = v := by
  cases v <;> rfl

/-- CFLIP with the answered bit XOR v flips cell i to v, and no other cell (R108). -/
theorem runSetv_legal {s : State} {i : Nat} (v : Bool) (hf : s.fault = false) (hi : i < s.cfg.n) :
    ∃ t, runSetv i v s = some ([⟨false, bitData (s.cell i)⟩, ⟨false, 0⟩], t) ∧
      ∀ j, t.cell j = if j = i then v else s.cell j := by
  let t := respond (accepted s s.cmds) false (bitData (s.cell i))
  have hcflip := runAssembled_cflip (s := t) (s.cell i ^^ v) hf hi
  refine ⟨respond (condFlipAt (accepted t t.cmds) (pos s.cfg i) (s.cell i ^^ v)) false 0, ?_, fun j => ?_⟩
  · simp only [runSetv, runAssembled_read hf hi, getLsbD_bitData]
    rw [hcflip]; rfl
  · rw [respond_cell]
    exact put_cell (accepted t t.cmds) i j v

theorem runSetv_illFormed {i : Nat} (hi : 16777216 ≤ i) (v : Bool) (s : State) : runSetv i v s = none := by
  have hbad : (Instr.read i).wellFormed = false := decide_eq_false (Nat.not_lt.mpr hi)
  simp only [runSetv, runAssembled_illFormed hbad]

/-- Settles O23: READ answers the cell and CFLIP then flips it exactly if it differs from v; without a word for READ
nothing runs. -/
theorem setvSetsTheCell : Obligations.SetvSetsTheCell := by
  refine ⟨fun s i v hf hi => ?_, fun s i => ⟨rfl, rfl⟩, fun s i v hi => runSetv_illFormed hi v s⟩
  obtain ⟨t, hrun, hcell⟩ := runSetv_legal v hf hi
  refine ⟨t, hrun, ?_, fun j _ hne => ?_⟩
  · rw [hcell, if_pos rfl]
  · rw [hcell, if_neg hne]

end Sys2Proof.Machine
end

section
/-! The cell and block commands (40_bitfield.md): their words, what they answer and leave unchanged, and their range
checks while FAULT = 0. -/

namespace Sys2Proof

/-! The words (30_encoding.md rules R85 and R92). -/

/-- An index that fits ARG is ORed into the word that its command has for index 0. -/
theorem packWord_eq_base_or {op : BitVec 4} {c : Bool} {x : Nat} {base : CmdWord} (hbase : packWord op c 0 = base)
    (hx : x < 16777216) : packWord op c x = base ||| BitVec.ofNat 32 x := by
  rw [← hbase, packWord_eq_or op c x hx, packWord_eq_or op c 0 (by decide), BitVec.or_zero]

theorem encodeWord_read {i : Nat} (hi : i < 16777216) : encodeWord (.read i) = 0x10000000 ||| BitVec.ofNat 32 i :=
  packWord_eq_base_or (by decide) hi

theorem encodeWord_flip {i : Nat} (hi : i < 16777216) : encodeWord (.flip i) = 0x20000000 ||| BitVec.ofNat 32 i :=
  packWord_eq_base_or (by decide) hi

theorem encodeWord_cflip {i : Nat} (c : Bool) (hi : i < 16777216) :
    encodeWord (.cflip i c) = 0x30000000 ||| (if c then 0x8000000 else 0) ||| BitVec.ofNat 32 i :=
  packWord_eq_or 0x3 c i hi

theorem encodeWord_rdblk {b : Nat} (hb : b < 16777216) : encodeWord (.rdblk b) = 0x50000000 ||| BitVec.ofNat 32 b :=
  packWord_eq_base_or (by decide) hb

theorem encodeWord_wrblk {b : Nat} (d : Word) (hb : b < 16777216) :
    encodeWord (.wrblk b d) = 0x60000000 ||| BitVec.ofNat 32 b :=
  packWord_eq_base_or (by decide) hb

/-- A command whose operands fit assembles to its word and its data, and the word decodes to it. -/
theorem assemble_decode_of_encodeWord_eq {i : Instr} {w : CmdWord} (hi : i.wellFormed = true) (hw : encodeWord i = w) :
    Machine.assemble i = some ⟨w, encodeDin i⟩ ∧ ∀ din, decode w din = .ok (i.withDin din) := by
  subst hw
  exact ⟨Machine.assemble_wellFormed hi, decode_encodeWord hi⟩

end Sys2Proof

namespace Sys2Proof.Machine

/-- A range fault while FAULT = 0 writes FAULT, CAUSE and FINFO, answers (1, 0), and changes nothing else. -/
theorem checked_outOfRange {s effect : State} {legal : Bool} {c : Cause} {w w' : CmdWord} (hf : s.fault = false)
    (hl : legal = false) (hw : w = w') :
    checked s legal c w effect =
      .next { s with fault := true, cause := c, finfo := w', rsp := some ⟨true, 0⟩ } := by
  rw [checked_illegal c w effect hf hl, raiseFault_unfaulted c w hf, hw]

theorem cellLegal_eq_false {p : Params} {i : Nat} (hi : p.n ≤ i) : cellLegal p i = false :=
  decide_eq_false (Nat.not_lt.mpr hi)

theorem blockLegal_eq_false {p : Params} {b : Nat} (hb : nb p ≤ b) : blockLegal p b = false :=
  decide_eq_false (Nat.not_lt.mpr hb)

/-! READ (R101). -/

/-- Settles O19: the word is packed from OP = 1 and the index, and the range check decides between the cell's value and
the fault. -/
theorem readAnswersTheCell : Obligations.ReadAnswersTheCell := fun _ _ hf =>
  ⟨fun hi => assemble_decode_of_encodeWord_eq ((fitsArg_iff _).mpr hi) (encodeWord_read hi),
    fun hi => exec_read_legal hf hi,
    fun hn hi => checked_outOfRange hf (cellLegal_eq_false hn) (encodeWord_read hi)⟩

/-! FLIP and CFLIP (R104, R107, R108). -/

theorem exec_flip_toggles {s : State} {i : Nat} (hf : s.fault = false) (hi : i < s.cfg.n) :
    ∃ t, exec (.flip i) s = .next t ∧ t = { s with mem := t.mem, rsp := some ⟨false, 0⟩ } ∧
      t.cell i = !s.cell i ∧ ∀ q, q ≠ pos s.cfg i → t.bitAt q = s.bitAt q := by
  refine ⟨_, exec_flip_legal hf hi, rfl, ?_, fun q hq => ?_⟩
  · simp [flipAt_cell]
  · simp [flipAt_bitAt s _ q (cell_bit_lt_64 s.cfg i), hq]

/-- A bit toggled twice is as it was. -/
theorem flipAt_flipAt_bitAt (s : State) (q r : Pos) (e : Bool) (d : Word) (hq : q.bit < 64) :
    (flipAt (respond (flipAt s q) e d) q).bitAt r = s.bitAt r := by
  rw [flipAt_bitAt _ q r hq, respond_bitAt, flipAt_bitAt s q r hq, Bool.xor_assoc, Bool.xor_self, Bool.xor_false]

theorem exec_flip_restores {s t : State} {i : Nat} (hf : s.fault = false) (hi : i < s.cfg.n)
    (h : exec (.flip i) s = .next t) : ∃ u, exec (.flip i) t = .next u ∧ ∀ q, u.bitAt q = s.bitAt q := by
  rw [exec_flip_legal hf hi] at h
  cases h
  refine ⟨_, exec_flip_legal hf hi, fun q => ?_⟩
  rw [respond_bitAt]
  exact flipAt_flipAt_bitAt s _ q false 0 (cell_bit_lt_64 s.cfg i)

/-- Settles O20: a flip toggles the bit at its position alone, so that a second one takes it back. -/
theorem flipTogglesOneCell : Obligations.FlipTogglesOneCell := by
  intro s i hf
  refine ⟨fun hi => ?_, fun hi => ?_, fun hn hi => ?_⟩
  · exact assemble_decode_of_encodeWord_eq ((fitsArg_iff i).mpr hi) (encodeWord_flip hi)
  · obtain ⟨t, ht, hframe, hcell, hother⟩ := exec_flip_toggles hf hi
    exact ⟨t, ht, hframe, hcell, hother, exec_flip_restores hf hi ht⟩
  · exact checked_outOfRange hf (cellLegal_eq_false hn) (encodeWord_flip hi)

theorem exec_cflip_true {s : State} {i : Nat} (hf : s.fault = false) (hi : i < s.cfg.n) :
    exec (.cflip i true) s = exec (.flip i) s :=
  (exec_cflip_legal true hf hi).trans (exec_flip_legal hf hi).symm

/-- Settles O21: with c = 1 the conditional flip is the flip itself, with c = 0 it is the identity, and the range check
does not look at c. -/
theorem cflipTogglesIfTold : Obligations.CflipTogglesIfTold := by
  intro s i hf
  refine ⟨fun hi => ?_, fun hi => ?_, fun hi => ⟨exec_cflip_legal false hf hi, ?_, exec_cflip_true hf hi⟩,
    fun c hn hi => ?_⟩
  · exact assemble_decode_of_encodeWord_eq (i := .cflip i false) ((fitsArg_iff i).mpr hi)
      (packWord_eq_base_or (by decide) hi)
  · exact assemble_decode_of_encodeWord_eq (i := .cflip i true) ((fitsArg_iff i).mpr hi)
      (packWord_eq_base_or (by decide) hi)
  · rw [exec_cflip_true hf hi]
    exact exec_flip_toggles hf hi
  · exact checked_outOfRange hf (cellLegal_eq_false hn) (encodeWord_cflip c hi)

/-- Settles O22: the condition is 1 exactly where the cell differs from v. -/
theorem cflipSetsAKnownValue : Obligations.CflipSetsAKnownValue := by
  intro s i v hf hi
  refine ⟨_, exec_cflip_legal _ hf hi, ?_, fun q hq => ?_⟩
  · rw [respond_cell, put_cell, if_pos rfl]
  · rw [respond_bitAt, put_bitAt s i q v hq]

/-! RDBLK (R110). -/

/-- Bit W-1-j of block b is cell b*W + j (20_memory.md rule R63). -/
theorem getLsbD_blk_eq_cell (s : State) (b : Nat) {j : Nat} (hj : j < s.cfg.w) :
    (s.blk b).getLsbD (s.cfg.w - 1 - j) = s.cell (b * s.cfg.w + j) := by
  rw [State.cell, pos_of_block s.cfg b j hj, State.bitAt]

/-- In a canonical storage a bit that holds no cell is 0 (10_state.md rule R32). -/
theorem getLsbD_blk_of_not_isCell {s : State} (hwf : Memory.wf s.cfg s.mem = true) {b k : Nat}
    (hk : isCell s.cfg ⟨b, k⟩ = false) : (s.blk b).getLsbD k = false := by
  have hmask : s.blk b &&& cellMask s.cfg b = s.blk b := read_and_cellMask b hwf
  rw [← hmask, BitVec.getLsbD_and, getLsbD_cellMask, hk, Bool.and_false]

theorem wf_of_inv {s : State} (hs : s.inv = true) : Memory.wf s.cfg s.mem = true := ((inv_iff s).mp hs).1

/-- Settles O24: the answer is the block word, whose bits are cells where the geometry has them and 0 elsewhere. -/
theorem rdblkAnswersTheBlock : Obligations.RdblkAnswersTheBlock := by
  intro s b hf
  refine ⟨fun hb => ?_, fun hb => ⟨exec_rdblk_legal hf hb, ?_, ?_⟩, fun hn hb => ?_⟩
  · exact assemble_decode_of_encodeWord_eq ((fitsArg_iff b).mpr hb) (encodeWord_rdblk hb)
  · exact fun j hj => getLsbD_blk_eq_cell s b hj
  · exact fun hs k hk => getLsbD_blk_of_not_isCell (wf_of_inv hs) hk
  · exact checked_outOfRange hf (blockLegal_eq_false hn) (encodeWord_rdblk hb)

/-! WRBLK (R113). -/

/-- A write of the word just read leaves the same list: it keeps the canonical form, in which storages that read alike
are equal. -/
theorem memWrite_blk_self {s : State} (hwf : Memory.wf s.cfg s.mem = true) (b : Nat) :
    memWrite s b (s.blk b) = s := by
  have hread : ∀ c, (memWrite s b (s.blk b)).blk c = s.blk c := by
    intro c
    rw [memWrite_blk]
    split
    · next hc => rw [hc]; exact read_and_cellMask b hwf
    · rfl
  have hmem : (memWrite s b (s.blk b)).mem = s.mem := wf_ext (memWrite_wf s b _ hwf) hwf hread
  calc memWrite s b (s.blk b) = { s with mem := (memWrite s b (s.blk b)).mem } := rfl
    _ = s := by rw [hmem]

theorem exec_wrblk_stores {s : State} {b : Nat} (d : Word) (hf : s.fault = false) (hb : b < nb s.cfg) :
    ∃ t, exec (.wrblk b d) s = .next t ∧ t = { s with mem := t.mem, rsp := some ⟨false, 0⟩ } ∧
      (∀ k, (t.blk b).getLsbD k = (isCell s.cfg ⟨b, k⟩ && d.getLsbD k)) ∧ ∀ c, c ≠ b → t.blk c = s.blk c := by
  refine ⟨_, exec_wrblk_legal d hf hb, rfl, fun k => ?_, fun c hc => ?_⟩
  · rw [respond_blk, getLsbD_memWrite_blk, Bool.and_comm]
  · rw [respond_blk, memWrite_blk, if_neg hc]

/-- Settles O25: the write goes through the mask of the block's cells, and the word just read has no other bit set. -/
theorem wrblkStoresTheBlock : Obligations.WrblkStoresTheBlock := by
  intro s b d hf
  refine ⟨fun hb => ?_, fun hb => ⟨exec_wrblk_stores d hf hb, fun hs => ?_⟩, fun hn hb => ?_⟩
  · obtain ⟨hassemble, hdecode⟩ :=
      assemble_decode_of_encodeWord_eq (i := .wrblk b d) ((fitsArg_iff b).mpr hb) (encodeWord_wrblk d hb)
    exact ⟨hassemble, hdecode d⟩
  · rw [exec_wrblk_legal _ hf hb, memWrite_blk_self (wf_of_inv hs)]
    rfl
  · exact checked_outOfRange hf (blockLegal_eq_false hn) (encodeWord_wrblk d hb)

end Sys2Proof.Machine
end

section
/-! The padding bits (40_bitfield.md rule R114): 0 under the invariant, and never written by the sequencer. -/

namespace Sys2Proof.Machine

/-! What the sequencer leaves unchanged (41_step.md rules R133 to R138 and R145). -/

/-- A relation between states that composes, and that holds over every write the sequencer is made of: its own
registers, a conditional flip at a cell, and the return to IDLE. -/
structure SequencerClosed (R : State → State → Prop) : Prop where
  refl : ∀ s, R s s
  trans : ∀ {s t u}, R s t → R t u → R s u
  registers : ∀ s ph r, R s (setSeq s ph r)
  flip : ∀ s q c, isCell s.cfg q = true → R s (condFlipAt s q c)
  idle : ∀ s, R s (seqEnd s)

section
variable {R : State → State → Prop}

theorem SequencerClosed.seqStart (hR : SequencerClosed R) {s t : State} (h : seqStart s = .ok t) : R s t := by
  rw [seqStart_eq] at h
  cases h
  exact hR.registers s _ _

theorem SequencerClosed.seqPut (hR : SequencerClosed R) {s t : State} {q : Pos} {v : Bool}
    (h : seqPut s q v = .ok t) : R s t := by
  obtain ⟨hq, rfl⟩ := seqPut_eq_ok h
  exact hR.flip s q _ hq

theorem SequencerClosed.seqLookup (hR : SequencerClosed R) {s t : State} (h : seqLookup s = .ok t) : R s t := by
  obtain ⟨l, -, h⟩ := bind_eq_ok h
  obtain ⟨c, -, h⟩ := bind_eq_ok h
  obtain ⟨r, -, h⟩ := bind_eq_ok h
  cases h
  exact hR.registers s _ _

theorem SequencerClosed.seqIter (hR : SequencerClosed R) {s t : State} (h : seqIter s = .ok t) : R s t := by
  obtain ⟨a, ha, h⟩ := bind_eq_ok h
  obtain ⟨b, hb, h⟩ := bind_eq_ok h
  cases h
  exact hR.trans (hR.trans (hR.seqLookup ha) (hR.seqPut hb)) (hR.registers b _ _)

theorem SequencerClosed.seqLoop (hR : SequencerClosed R) {fuel : Nat} {s t : State} (h : seqLoop fuel s = .ok t) :
    R s t := by
  induction fuel generalizing s with
  | zero => cases h; exact hR.refl _
  | succ fuel ih =>
    rw [Machine.seqLoop] at h
    split at h
    · obtain ⟨a, ha, h⟩ := bind_eq_ok h
      exact hR.trans (hR.seqIter ha) (ih h)
    · cases h; exact hR.refl _

theorem SequencerClosed.seqFlush (hR : SequencerClosed R) {s t : State} (h : seqFlush s = .ok t) : R s t :=
  hR.trans (hR.registers s _ _) (hR.seqPut h)

/-- What every write of the sequencer respects, the whole sequence does. -/
theorem SequencerClosed.runSequencer (hR : SequencerClosed R) {s t : State} (h : runSequencer s = .ok t) : R s t := by
  obtain ⟨a, ha, h⟩ := bind_eq_ok h
  obtain ⟨b, hb, h⟩ := bind_eq_ok h
  obtain ⟨c, hc, h⟩ := bind_eq_ok h
  cases h
  exact hR.trans (hR.trans (hR.trans (hR.seqStart ha) (hR.seqLoop hb)) (hR.seqFlush hc)) (hR.idle c)

end

/-- The configuration and every storage bit that holds no cell are as they were. -/
structure KeepsNonCells (s t : State) : Prop where
  cfg : t.cfg = s.cfg
  bit : ∀ q, isCell s.cfg q = false → t.bitAt q = s.bitAt q

theorem KeepsNonCells.trans {s t u : State} (hst : KeepsNonCells s t) (htu : KeepsNonCells t u) :
    KeepsNonCells s u :=
  ⟨htu.cfg.trans hst.cfg, fun q hq => (htu.bit q (hst.cfg ▸ hq)).trans (hst.bit q hq)⟩

theorem condFlipAt_keepsNonCells (s : State) (q : Pos) (c : Bool) (hq : isCell s.cfg q = true) :
    KeepsNonCells s (condFlipAt s q c) := by
  refine ⟨condFlipAt_cfg s q c, fun r hr => ?_⟩
  have hbit : q.bit < 64 := (isCell_bit_lt hq).trans_le (w_le s.cfg)
  have hne : r ≠ q := by rintro rfl; exact absurd hq (by simp [hr])
  simp [condFlipAt_bitAt s q r c hbit, hne]

theorem keepsNonCells_sequencerClosed : SequencerClosed KeepsNonCells where
  refl _ := ⟨rfl, fun _ _ => rfl⟩
  trans := KeepsNonCells.trans
  registers s ph r := ⟨rfl, fun q _ => setSeq_bitAt s ph r q⟩
  flip := condFlipAt_keepsNonCells
  idle s := ⟨rfl, fun q _ => seqEnd_bitAt s q⟩

/-- A STEP writes cells only, whether it is refused or runs. -/
theorem exec_step_bitAt_of_not_isCell {s t : State} (h : exec .step s = .next t) {q : Pos}
    (hq : isCell s.cfg q = false) : t.bitAt q = s.bitAt q := by
  simp only [exec, execStep] at h
  split at h
  · cases h; exact refuse_bitAt s q
  · split at h
    · next u hu =>
      cases h
      rw [respond_bitAt]
      exact (keepsNonCells_sequencerClosed.runSequencer hu).bit q hq
    · exact nomatch h

/-! The padding bits of a state that meets the invariant. -/

theorem paddingBit_eq_false {s : State} (hs : s.inv = true) {k : Nat} (hk : k < padBits s.cfg) :
    (s.blk (nb s.cfg - 1)).getLsbD k = false :=
  getLsbD_blk_of_not_isCell (wf_of_inv hs) (isCell_of_isPadding ((isPadding_iff _ _).mpr ⟨rfl, hk⟩))

theorem paddingBit_after_step {s t : State} (hs : s.inv = true) (h : step s = .next t) {k : Nat}
    (hk : k < padBits s.cfg) : (t.blk (nb s.cfg - 1)).getLsbD k = false := by
  have hcfg := step_cfg h
  rw [← hcfg] at hk ⊢
  exact paddingBit_eq_false (stepKeepsTheInvariant s t hs h) hk

/-- Settles O28: the reset state meets the invariant and every step keeps it; the sequencer writes cells only. -/
theorem paddingBitsAreZero : Obligations.PaddingBitsAreZero :=
  ⟨fun p _ hk => paddingBit_eq_false (resetFor_inv p) hk,
    fun _ hs _ hk => ⟨paddingBit_eq_false hs hk, fun _ h => paddingBit_after_step hs h hk⟩,
    fun _ _ h _ hq => exec_step_bitAt_of_not_isCell h (isCell_of_isPadding hq)⟩

end Sys2Proof.Machine
end

section
/-! STEP (41_step.md), the sequencer: the window's positions, the next generation cell by cell, and the loop invariant
of the pass that writes it. -/

namespace Sys2Proof.Machine

/-! Window positions (R139). -/

/-- The position of the next index is the successor of the position. -/
theorem pos_succ (p : Params) (i : Nat) : pos p (i + 1) = nextPos p (pos p i) := by
  have hw := w_pos p
  have hlt := pos_bit_lt p i
  have hindex := index_pos p i
  unfold nextPos
  split
  · next h0 =>
    have hsucc : i + 1 = ((pos p i).blk + 1) * p.w + (p.w - 1 - (p.w - 1)) := by rw [Nat.add_mul]; omega
    rw [hsucc]
    exact pos_index p ⟨_, p.w - 1⟩ (Nat.sub_lt hw Nat.one_pos)
  · next h0 =>
    have hsucc : i + 1 = (pos p i).blk * p.w + (p.w - 1 - ((pos p i).bit - 1)) := by omega
    rw [hsucc]
    exact pos_index p ⟨_, (pos p i).bit - 1⟩ (by simp only; omega)

/-- Settles O31: the first equation is `pos`'s definition, the second the successor of an index. -/
theorem windowPositionsAdvanceByOneBit : Obligations.WindowPositionsAdvanceByOneBit :=
  fun p i => ⟨rfl, pos_succ p i⟩

/-! The next generation, cell by cell (R131, R141). -/

/-- A boundary cell, and an index past the row, is its own next value. -/
theorem nextCell_boundary {s : State} {j : Nat} (h : j = 0 ∨ s.cfg.n ≤ j + 1) : s.nextCell j = s.cell j := if_pos h

theorem nextCell_interior {s : State} {j : Nat} (h0 : 1 ≤ j) (hn : j + 1 < s.cfg.n) :
    s.nextCell j = ruleNext s.cfg (s.cell (j - 1)) (s.cell j) (s.cell (j + 1)) := if_neg (by omega)

/-- The next value of a cell looks at RULE and at the cells of the row alone (R149). -/
theorem nextCell_congr {s s' : State} (hn : s.cfg.n = s'.cfg.n) (hrule : s.cfg.rule = s'.cfg.rule)
    (hcell : ∀ j, j < s.cfg.n → s.cell j = s'.cell j) {j : Nat} (hj : j < s.cfg.n) :
    s.nextCell j = s'.nextCell j := by
  by_cases hb : j = 0 ∨ s.cfg.n ≤ j + 1
  · rw [nextCell_boundary hb, nextCell_boundary (hn ▸ hb), hcell j hj]
  · rw [nextCell_interior (by omega) (by omega), nextCell_interior (by omega) (by omega), ruleNext, ruleNext, hrule,
      hcell (j - 1) (by omega), hcell j hj, hcell (j + 1) (by omega)]

/-- With RULE[0] = 0 an all-dead row has no live cell next (R146). -/
theorem nextCell_dead {s : State} (hrule : s.cfg.rule.getLsbD 0 = false)
    (hdead : ∀ j, j < s.cfg.n → s.cell j = false) {j : Nat} (hj : j < s.cfg.n) : s.nextCell j = false := by
  by_cases hb : j = 0 ∨ s.cfg.n ≤ j + 1
  · rw [nextCell_boundary hb, hdead j hj]
  · rw [nextCell_interior (by omega) (by omega), hdead (j - 1) (by omega), hdead j hj, hdead (j + 1) (by omega)]
    exact hrule

/-! The storage of the pass (R140, R142). -/

/-- The first k cells of s are written, each by the flip that takes its old value to its next one (R135). -/
def writeNext (s : State) : Nat → State
  | 0 => s
  | k + 1 => condFlipAt (writeNext s k) (pos s.cfg k) (s.cell k ^^ s.nextCell k)

@[simp] theorem writeNext_cfg (s : State) (k : Nat) : (writeNext s k).cfg = s.cfg := by
  induction k with
  | zero => rfl
  | succ k ih => rw [writeNext, condFlipAt_cfg, ih]

theorem writeNext_cell (s : State) (k j : Nat) :
    (writeNext s k).cell j = if j < k then s.nextCell j else s.cell j := by
  induction k with
  | zero => rfl
  | succ k ih =>
    have hflip := condFlipAt_cell (writeNext s k) k j (s.cell k ^^ s.nextCell k)
    rw [writeNext_cfg, ih] at hflip
    rw [writeNext, hflip]
    obtain hj | rfl | hj := Nat.lt_trichotomy j k
    · simp [hj, hj.ne, Nat.lt_succ_of_lt hj]
    · simp
    · simp [Nat.not_lt_of_gt hj, hj.ne', Nat.not_lt.mpr hj]

theorem writeNext_cell_old (s : State) {k j : Nat} (h : k ≤ j) : (writeNext s k).cell j = s.cell j := by
  rw [writeNext_cell, if_neg (Nat.not_lt.mpr h)]

theorem writeNext_cell_new (s : State) {k j : Nat} (h : j < k) : (writeNext s k).cell j = s.nextCell j := by
  rw [writeNext_cell, if_pos h]

/-- With all but the last cell written the row is the next generation. -/
theorem writeNext_all (s : State) (j : Nat) : (writeNext s (s.cfg.n - 1)).cell j = s.nextCell j := by
  by_cases hj : j < s.cfg.n - 1
  · exact writeNext_cell_new s hj
  · rw [writeNext_cell_old s (Nat.le_of_not_lt hj), nextCell_boundary (.inr (by omega))]

/-- Two states hold the same in every block: their configurations and their lists of written blocks agree. -/
structure SameStorage (s t : State) : Prop where
  cfg : t.cfg = s.cfg
  mem : t.mem = s.mem

theorem SameStorage.blk {s t : State} (h : SameStorage s t) (b : Nat) : t.blk b = s.blk b := by
  rw [State.blk, State.blk, h.cfg, h.mem]

theorem SameStorage.cell {s t : State} (h : SameStorage s t) (j : Nat) : t.cell j = s.cell j := by
  rw [State.cell, State.cell, h.cfg, bitAt_congr h.cfg h.mem]

theorem SameStorage.condFlipAt {s t : State} (h : SameStorage s t) (q : Pos) (c : Bool) :
    SameStorage (condFlipAt s q c) (condFlipAt t q c) := by
  cases c with
  | false => exact h
  | true => exact ⟨h.cfg, by simp only [Machine.condFlipAt, if_true, flipAt_mem, h.blk, h.cfg, h.mem]⟩

/-! The loop invariant (R137, R140, R142). -/

/-- The pass from state s has come to cell k: the cells before k are written, the window is on cells k, k+1 and k+2,
and PREV, and after an iteration CURR too, is the next value of cell k. -/
structure PassAt (s b : State) (k : Nat) : Prop where
  storage : SameStorage (writeNext s k) b
  window : WindowAt b k
  prev : b.seq.regs.prev = s.nextCell k
  curr : 0 < k → b.seq.regs.curr = s.nextCell k

theorem PassAt.cfg {s b : State} {k : Nat} (h : PassAt s b k) : b.cfg = s.cfg :=
  h.storage.cfg.trans (writeNext_cfg s k)

theorem PassAt.cell_old {s b : State} {k j : Nat} (h : PassAt s b k) (hj : k ≤ j) : b.cell j = s.cell j :=
  (h.storage.cell j).trans (writeNext_cell_old s hj)

/-- The flip of the window's left cell to its next value is the next write of the pass (R135, R138). -/
theorem PassAt.put_storage {s b : State} {k : Nat} (h : PassAt s b k) :
    SameStorage (writeNext s (k + 1)) (condFlipAt b (pos b.cfg k) (b.cell k ^^ s.nextCell k)) := by
  rw [h.cfg, h.cell_old le_rfl]
  exact h.storage.condFlipAt _ _

theorem seqStart_passAt (s : State) : ∃ a, seqStart s = .ok a ∧ PassAt s a 0 := by
  have hn := three_le_n s.cfg
  refine ⟨_, seqStart_eq s, ⟨rfl, rfl⟩, ⟨?_, rfl, rfl, rfl, rfl⟩, ?_, fun h => absurd h (Nat.lt_irrefl 0)⟩
  · rw [setSeq_cfg]; omega
  · exact (nextCell_boundary (.inl rfl)).symm

/-- An iteration writes the next value of cell k, from its old one, and moves the pass to cell k+1. -/
theorem seqIter_passAt {s b : State} {k : Nat} (h : PassAt s b k) (hk : k + 2 < s.cfg.n) :
    ∃ t, seqIter b = .ok t ∧ PassAt s t (k + 1) := by
  obtain ⟨-, hi, hwl, hwc, hwr⟩ := h.window
  have hcode : ruleNext b.cfg (b.cell k) (b.cell (k + 1)) (b.cell (k + 2)) = s.nextCell (k + 1) := by
    rw [nextCell_interior (Nat.le_add_left 1 k) hk, h.cfg, h.cell_old le_rfl, h.cell_old (Nat.le_add_right k 1),
      h.cell_old (Nat.le_add_right k 2), Nat.add_sub_cancel]
  have hiter := seqIter_eq b k hwl hwc hwr (h.cfg ▸ hk)
  rw [hcode, h.prev, hi] at hiter
  refine ⟨_, hiter, ⟨h.put_storage.cfg, h.put_storage.mem⟩, ⟨?_, rfl, by simp, by simp, by simp⟩, rfl, fun _ => rfl⟩
  rw [setSeq_cfg, condFlipAt_cfg, h.cfg]
  omega

/-! The loop (R137). -/

theorem seqLoop_succ {s t : State} (hi : s.seq.regs.i ≤ s.cfg.n) (ht : seqIter s = .ok t) (fuel : Nat) :
    seqLoop (fuel + 1) s = seqLoop fuel t := by
  rw [seqLoop, if_pos hi, ht]; rfl

theorem seqLoop_ended {s : State} (hi : s.cfg.n < s.seq.regs.i) (fuel : Nat) : seqLoop fuel s = .ok s := by
  cases fuel with
  | zero => rfl
  | succ fuel => rw [seqLoop, if_neg (Nat.not_le.mpr hi)]

theorem PassAt.i_le {s b : State} {k : Nat} (h : PassAt s b k) (hk : k + 2 < s.cfg.n) : b.seq.regs.i ≤ b.cfg.n := by
  rw [h.window.i, h.cfg]; omega

/-- m more iterations, with any number allowed after them, take the pass from cell k to cell k+m. -/
theorem seqLoop_passAt (m : Nat) {s b : State} {k : Nat} (h : PassAt s b k) (hm : k + m + 2 ≤ s.cfg.n) :
    ∃ t, PassAt s t (k + m) ∧ ∀ fuel, seqLoop (m + fuel) b = seqLoop fuel t := by
  induction m generalizing b k with
  | zero => exact ⟨b, h, fun fuel => by rw [Nat.zero_add]⟩
  | succ m ih =>
    obtain ⟨c, hc, hpass⟩ := seqIter_passAt h (by omega)
    obtain ⟨t, ht, hloop⟩ := ih hpass (by omega)
    refine ⟨t, by rwa [Nat.add_right_comm] at ht, fun fuel => ?_⟩
    rw [Nat.add_right_comm, seqLoop_succ (h.i_le (by omega)) hc, hloop]

/-- Settles O34: the pass starts at cell 0 and each iteration moves it by one. -/
theorem writesTrailReadsByOneCell : Obligations.WritesTrailReadsByOneCell := by
  intro s k hk
  have hn := three_le_n s.cfg
  obtain ⟨a, ha, hstart⟩ := seqStart_passAt s
  obtain ⟨b, hpass, hloop⟩ := seqLoop_passAt k hstart (by omega)
  rw [Nat.zero_add] at hpass
  obtain ⟨-, hi, hwl, hwc, hwr⟩ := hpass.window
  rw [hpass.cfg] at hwl hwc hwr
  exact ⟨a, b, ha, hloop 0, hi, hwl, hwc, hwr, fun j => hpass.cell_old,
    fun j hj => (hpass.storage.cell j).trans (writeNext_cell_new s hj), hpass.prev, hpass.curr⟩

/-- From the start the loop ends with the pass at cell N-2, whatever number of iterations from N-2 on is allowed. -/
theorem seqLoop_ends {s a : State} (h : PassAt s a 0) :
    ∃ b, PassAt s b (s.cfg.n - 2) ∧ ∀ fuel, s.cfg.n - 2 ≤ fuel → seqLoop fuel a = .ok b := by
  have hn := three_le_n s.cfg
  obtain ⟨b, hpass, hloop⟩ := seqLoop_passAt (s.cfg.n - 2) h (by omega)
  rw [Nat.zero_add] at hpass
  refine ⟨b, hpass, fun fuel hfuel => ?_⟩
  have hended : b.cfg.n < b.seq.regs.i := by rw [hpass.window.i, hpass.cfg]; omega
  rw [← Nat.add_sub_cancel' hfuel, hloop, seqLoop_ended hended]

/-- Settles O35: after N-2 iterations I is N+1, so that the loop's own condition ends it. -/
theorem loopRunsNMinusTwoTimes : Obligations.LoopRunsNMinusTwoTimes := by
  intro s a fuel ha hfuel
  have hn := three_le_n s.cfg
  obtain ⟨a', ha', hstart⟩ := seqStart_passAt s
  obtain rfl : a' = a := Except.ok.inj (ha'.symm.trans ha)
  obtain ⟨b, hpass, hloop⟩ := seqLoop_ends hstart
  refine ⟨b, hloop _ le_rfl, hloop fuel hfuel, ?_, hpass.cfg ▸ hpass.window.wl⟩
  rw [hpass.window.i]; omega

/-! The whole sequence (R138, R141). -/

/-- The flush writes the last cell that changes, cell N-2. -/
theorem seqFlush_passAt {s b : State} (h : PassAt s b (s.cfg.n - 2)) :
    ∃ c, seqFlush b = .ok c ∧ SameStorage (writeNext s (s.cfg.n - 1)) c := by
  have hn := three_le_n s.cfg
  have hflush := seqFlush_eq b _ h.window.wl (by rw [h.cfg]; omega)
  have hput := h.put_storage
  rw [h.curr (by omega)] at hflush
  rw [show s.cfg.n - 2 + 1 = s.cfg.n - 1 by omega] at hput
  exact ⟨_, hflush, hput.cfg, hput.mem⟩

/-- From every state the sequencer answers, with all but the last cell written. -/
theorem runSequencer_writeNext (s : State) :
    ∃ t, runSequencer s = .ok t ∧ SameStorage (writeNext s (s.cfg.n - 1)) t := by
  obtain ⟨a, ha, hstart⟩ := seqStart_passAt s
  obtain ⟨b, hpass, hloop⟩ := seqLoop_ends hstart
  obtain ⟨c, hc, hstorage⟩ := seqFlush_passAt hpass
  refine ⟨seqEnd c, ?_, hstorage.cfg, hstorage.mem⟩
  simp only [runSequencer, ha, hloop _ (Nat.sub_le _ 2), hc, bind, Except.bind, pure, Except.pure]

end Sys2Proof.Machine
end

section
/-! STEP (41_step.md), the command: what it answers and leaves unchanged, special rows, and the boundary cells over a
program. -/

namespace Sys2Proof.Machine

/-! STEP while FAULT = 0 (R130, R141). -/

/-- STEP runs the sequencer and answers (0, 0). -/
theorem exec_step_unfaulted {s u : State} (hf : s.fault = false) (hu : runSequencer s = .ok u) :
    exec .step s = .next (respond u false 0) := by
  simp only [exec, execStep, hf, hu, Bool.false_eq_true, if_false]

/-- STEP completes, and every cell takes its next value. -/
theorem exec_step_nextCell {s : State} (hf : s.fault = false) :
    ∃ t, exec .step s = .next t ∧ ∀ j, t.cell j = s.nextCell j := by
  obtain ⟨u, hu, hstorage⟩ := runSequencer_writeNext s
  refine ⟨_, exec_step_unfaulted hf hu, fun j => ?_⟩
  rw [respond_cell, hstorage.cell, writeNext_all]

/-- STEP completes, writing the storage and its own hidden registers alone. -/
theorem exec_step_frame {s : State} (hf : s.fault = false) :
    ∃ t, exec .step s = .next t ∧ t.rsp = some ⟨false, 0⟩ ∧ t.seq.phase = .idle ∧
      t = { s with mem := t.mem, seq := t.seq, rsp := t.rsp, fresh := t.fresh } := by
  obtain ⟨u, hu⟩ := runSequencer_answers s
  obtain ⟨effect, hidle⟩ := runSequencer_effect hu
  refine ⟨_, exec_step_unfaulted hf hu, rfl, hidle, ?_⟩
  cases effect
  rfl

/-- Settles O33: the sequencer answers from every state, and has no other effect than on the storage and on its own
registers. -/
theorem stepNeverFaultsAndHasThisFrame : Obligations.StepNeverFaultsAndHasThisFrame := fun _ => exec_step_frame

/-- Settles O32: the pass leaves every cell at its next value, which is its old one at the ends of the row, and writes
no other bit; STATUS and FINFO are in the frame. -/
theorem stepComputesTheNextGeneration : Obligations.StepComputesTheNextGeneration := by
  intro s hf
  have hn := three_le_n s.cfg
  obtain ⟨t, ht, hcell⟩ := exec_step_nextCell hf
  obtain ⟨t', ht', -, -, hframe⟩ := exec_step_frame hf
  obtain rfl : t' = t := Host.Outcome.next.inj (ht'.symm.trans ht)
  refine ⟨t', ht, ?_, ?_, fun j h1 hj => ?_, fun q => exec_step_bitAt_of_not_isCell ht, ?_, ?_⟩
  · rw [hcell, nextCell_boundary (.inl rfl)]
  · rw [hcell, nextCell_boundary (.inr (by omega))]
  · rw [hcell, nextCell_interior h1 (by omega)]; rfl
  · rw [hframe]; rfl
  · rw [hframe]

/-- Settles O36: a dead cell with dead neighbours takes RULE's entry 0. -/
theorem allDeadRowStaysDead : Obligations.AllDeadRowStaysDead := by
  intro s hf hrule hdead
  obtain ⟨t, ht, hcell⟩ := exec_step_nextCell hf
  exact ⟨t, ht, fun j hj => (hcell j).trans (nextCell_dead hrule hdead hj)⟩

/-- Settles O37: with N = 3 cells 0 and 2 are the boundary, and cell 1 is the only one in between. -/
theorem threeCellRowGivesTheRuleEntry : Obligations.ThreeCellRowGivesTheRuleEntry := by
  intro s hf hn
  obtain ⟨t, ht, hcell⟩ := exec_step_nextCell hf
  refine ⟨t, ht, ?_, ?_, ?_⟩
  · rw [hcell, nextCell_boundary (.inl rfl)]
  · rw [hcell, nextCell_interior le_rfl (by omega)]; rfl
  · rw [hcell, nextCell_boundary (.inr (by omega))]

/-- Settles O39: both runs leave the next values, and these agree. -/
theorem stepDependsOnCellsAndRuleAlone : Obligations.StepDependsOnCellsAndRuleAlone := by
  intro s s' hf hf' hn hrule hcells
  obtain ⟨t, ht, hcell⟩ := exec_step_nextCell hf
  obtain ⟨t', ht', hcell'⟩ := exec_step_nextCell hf'
  exact ⟨t, t', ht, ht', fun j hj => by rw [hcell, hcell', nextCell_congr hn hrule hcells hj]⟩

/-! The boundary cells over a program (R147). -/

/-- STEP in the fault state too keeps the boundary cells, and so does every command that writes no storage. -/
theorem exec_boundary_cell {i : Instr} {s t : State} (hi : i = .step ∨ writesStorage i = false)
    (h : exec i s = .next t) {j : Nat} (hj : j = 0 ∨ s.cfg.n ≤ j + 1) : t.cell j = s.cell j := by
  obtain rfl | hi := hi
  · cases hf : s.fault with
    | true =>
      simp only [exec, execStep, hf, if_true] at h
      cases h
      exact refuse_cell s j
    | false =>
      obtain ⟨u, hu, hcell⟩ := exec_step_nextCell hf
      obtain rfl : u = t := Host.Outcome.next.inj (hu.symm.trans h)
      rw [hcell, nextCell_boundary hj]
  · exact SameStorage.cell ⟨(exec_answered h).cfg, exec_mem_of_not_writesStorage hi h⟩ j

theorem executeCommand_boundary_cell {c : Command} {s t : State}
    (hc : ∀ i, decode c.cmd c.din = .ok i → i = .step ∨ writesStorage i = false) (h : executeCommand c s = .next t)
    {j : Nat} (hj : j = 0 ∨ s.cfg.n ≤ j + 1) : t.cell j = s.cell j := by
  cases hd : decode c.cmd c.din with
  | ok i => exact exec_boundary_cell (hc i hd) (executeCommand_ok hd s ▸ h) hj
  | error e =>
    rw [executeCommand_error hd] at h
    cases h
    exact violation_cell s _ _ j

theorem runProgram_boundary_cell (prog : List Command) (s : State)
    (hprog : ∀ c ∈ prog, ∀ i, decode c.cmd c.din = .ok i → i = .step ∨ writesStorage i = false) :
    ∃ rs t, runProgram prog s = some (rs, t) ∧ ∀ j, (j = 0 ∨ s.cfg.n ≤ j + 1) → t.cell j = s.cell j := by
  induction prog generalizing s with
  | nil => exact ⟨[], s, rfl, fun _ _ => rfl⟩
  | cons c cs ih =>
    obtain ⟨hc, hcs⟩ := List.forall_mem_cons.mp hprog
    obtain ⟨t, ht, r, hr, -⟩ := executeCommand_answers c (accepted s s.cmds)
    have hcfg : t.cfg = s.cfg := (executeCommand_answered ht).cfg
    obtain ⟨rs, u, hrun, hcell⟩ := ih t hcs
    refine ⟨r :: rs, u, ?_, fun j hj => ?_⟩
    · rw [runProgram_cons ht hr, hrun, Option.map_some]
    · calc u.cell j = t.cell j := hcell j (hcfg ▸ hj)
        _ = (accepted s s.cmds).cell j := executeCommand_boundary_cell hc ht hj
        _ = s.cell j := accepted_cell s s.cmds j

/-- Settles O38: cells 0 and N-1 are on the boundary, which each command of the program keeps. -/
theorem boundaryCellsKeepTheirValues : Obligations.BoundaryCellsKeepTheirValues := by
  intro prog s hprog
  obtain ⟨rs, t, hrun, hcell⟩ := runProgram_boundary_cell prog s hprog
  exact ⟨rs, t, hrun, hcell 0 (.inl rfl), hcell _ (.inr (by omega))⟩

end Sys2Proof.Machine
end

section
/-! STEP (41_step.md), the shift-register realisation of the pass (R143). -/

namespace Sys2Proof.Machine

/-- The pipeline holds the old values of the cells k, k+1 and k+2 of s, the last where there is one, and the next value
of cell k. -/
structure PipeAt (s : State) (p : ShiftPipe) (k : Nat) : Prop where
  i : p.i = k + 3
  left : p.left = s.cell k
  centre : p.centre = s.cell (k + 1)
  right : k + 2 < s.cfg.n → p.right = s.cell (k + 2)
  prev : p.prev = s.nextCell k

theorem shiftStart_pipeAt (s : State) : PipeAt s (shiftStart s) 0 :=
  ⟨rfl, rfl, rfl, fun _ => rfl, (nextCell_boundary (.inl rfl)).symm⟩

/-- An iteration of the pipeline writes what an iteration of the sequencer does. -/
theorem shiftIter_storage {s : State} {p : ShiftPipe} {k : Nat} (h : PipeAt s p k) :
    (shiftIter (writeNext s k) p).1 = writeNext s (k + 1) := by
  rw [shiftIter, writeNext, h.i, h.left, h.prev, writeNext_cfg, Nat.add_sub_cancel]

/-- The cell that the register takes in has its old value still. -/
theorem shiftIter_pipeAt {s : State} {p : ShiftPipe} {k : Nat} (h : PipeAt s p k) (hk : k + 2 < s.cfg.n) :
    PipeAt s (shiftIter (writeNext s k) p).2 (k + 1) where
  i := congrArg (· + 1) h.i
  left := h.centre
  centre := h.right hk
  right hk' := by
    have hi : k + 3 < (writeNext s k).cfg.n := by rw [writeNext_cfg]; omega
    simp only [shiftIter, h.i, if_pos hi]
    exact writeNext_cell_old s (Nat.le_add_right k 3)
  prev := by
    simp only [shiftIter, h.left, h.centre, h.right hk, writeNext_cfg]
    exact (nextCell_interior (Nat.le_add_left 1 k) hk).symm

theorem shiftLoop_storage (m : Nat) {s : State} {p : ShiftPipe} {k : Nat} (h : PipeAt s p k)
    (hm : k + m + 2 ≤ s.cfg.n) :
    (shiftLoop m (writeNext s k) p).1 = writeNext s (k + m) ∧ PipeAt s (shiftLoop m (writeNext s k) p).2 (k + m) := by
  induction m generalizing p k with
  | zero => exact ⟨rfl, h⟩
  | succ m ih =>
    have hstep := ih (shiftIter_pipeAt h (by omega)) (by omega)
    rw [Nat.add_right_comm] at hstep
    rw [shiftLoop, shiftIter_storage h]
    exact hstep

theorem shiftRun_eq (s : State) : shiftRun s = writeNext s (s.cfg.n - 1) := by
  have hn := three_le_n s.cfg
  obtain ⟨hstorage, hpipe⟩ := shiftLoop_storage (s.cfg.n - 2) (shiftStart_pipeAt s) (by omega)
  rw [Nat.zero_add, writeNext] at hstorage hpipe
  rw [shiftRun, hstorage, hpipe.left, hpipe.prev, show s.cfg.n - 1 = s.cfg.n - 2 + 1 by omega, writeNext]

/-- Settles O40: both passes write the same cells with the same flips. -/
theorem shiftRegisterPassEqualsTheSequencer : Obligations.ShiftRegisterPassEqualsTheSequencer := by
  intro s
  obtain ⟨t, ht, hstorage⟩ := runSequencer_writeNext s
  exact ⟨t, ht, fun b => by rw [shiftRun_eq, hstorage.blk]⟩

end Sys2Proof.Machine
end

section
/-! NOP and RDREG (42_control.md): their words, what they answer in every state, and RDREG's range check. -/

namespace Sys2Proof

/-! NOP's word (R170). -/

/-- Of the commands, NOP alone has OP = 0 (30_encoding.md rule R85). -/
theorem eq_nop_of_opField_eq_zero {w : CmdWord} {din : Word} {i : Instr} (h : decode w din = .ok i)
    (hop : opField w = 0) : i = .nop := by
  obtain ⟨-, ⟨-, -, -, hnop⟩ | hother⟩ := decode_ok_cases h
  · exact hnop
  · simp [hop] at hother

theorem decode_eq_nop_iff (w : CmdWord) (din : Word) : decode w din = .ok .nop ↔ w = 0 := by
  constructor
  · intro h
    obtain ⟨hword, -, -⟩ := encodeOfDecode w din .nop h
    exact hword.symm
  · rintro rfl
    exact decode_encodeWord (i := .nop) rfl din

theorem decode_error_of_opField_eq_zero {w : CmdWord} (din : Word) (hop : opField w = 0) (hw : w ≠ 0) :
    ∃ e, decode w din = .error e := by
  cases hd : decode w din with
  | error e => exact ⟨e, rfl⟩
  | ok i => exact absurd ((decode_eq_nop_iff w din).mp (eq_nop_of_opField_eq_zero hd hop ▸ hd)) hw

/-! RDREG's word (R172). -/

theorem encodeWord_rdreg {r : Nat} (hr : r < 16777216) : encodeWord (.rdreg r) = 0x70000000 ||| BitVec.ofNat 32 r :=
  packWord_eq_base_or (by decide) hr

end Sys2Proof

namespace Sys2Proof.Machine

/-- Settles O41: NOP is the one command with OP = 0, and 0 is its one word; its meaning is the response alone. -/
theorem nopDoesNothing : Obligations.NopDoesNothing :=
  ⟨fun _ => rfl, decode_eq_nop_iff, assemble_wellFormed rfl, fun _ din => decode_error_of_opField_eq_zero din⟩

/-! RDREG (R172). -/

/-- A register that exists is read in every state (60_exceptions.md rule R190). -/
theorem exec_rdreg_legal (s : State) {r : Nat} (hr : r ≤ 4) :
    exec (.rdreg r) s = .next { s with rsp := some ⟨false, (readReg s r).setWidth 64⟩ } :=
  if_pos (decide_eq_true hr)

theorem exec_rdreg_illegal (s : State) {r : Nat} (hr : 4 < r) :
    exec (.rdreg r) s = .next (violation s .regRange (encodeWord (.rdreg r))) :=
  if_neg (by simpa [regLegal] using hr)

/-- A configuration register answers its number, which fits the register. -/
theorem exec_rdreg_number (s : State) {r x : Nat} (hr : r ≤ 4) (hreg : readReg s r = BitVec.ofNat 32 x)
    (hx : x ≤ 16777216) : exec (.rdreg r) s = .next { s with rsp := some ⟨false, BitVec.ofNat 64 x⟩ } := by
  have hext : (BitVec.ofNat 32 x).setWidth 64 = BitVec.ofNat 64 x :=
    BitVec.setWidth_ofNat_of_le_of_lt (by decide) (by omega)
  rw [exec_rdreg_legal s hr, hreg, hext]

theorem exec_rdreg_outOfRange {s : State} {r : Nat} (hr : 4 < r) (hfit : r < 16777216) (hf : s.fault = false) :
    exec (.rdreg r) s = .next { s with
      fault := true, cause := .regRange, finfo := 0x70000000 ||| BitVec.ofNat 32 r, rsp := some ⟨true, 0⟩ } := by
  rw [exec_rdreg_illegal s hr, violation_unfaulted _ _ hf, raiseFault_unfaulted _ _ hf, encodeWord_rdreg hfit]

/-- With no fault recorded, RULE is all there is in STATUS (10_state.md rule R36). -/
theorem status_unfaulted {s : State} (hf : s.fault = false) (hc : s.cause = .none) :
    s.status = s.cfg.rule.setWidth 32 <<< 8 := by
  have hlow : causeCode .none ++ (0#3 ++ BitVec.ofBool false) = 0#8 := rfl
  rw [State.status, hf, hc, hlow, BitVec.append_assoc']
  simpa using BitVec.setWidth_append_append_eq_shiftLeft_setWidth_or (b := 0#16) (b' := s.cfg.rule) (b'' := 0#8)
    (w''' := 32)

/-- Settles O42: the range check alone decides what RDREG does; STATUS and FINFO while FAULT = 0 are the invariant's
fault record. -/
theorem rdregAnswersTheRegister : Obligations.RdregAnswersTheRegister := by
  refine ⟨fun r hr => assemble_decode_of_encodeWord_eq ((fitsArg_iff r).mpr hr) (encodeWord_rdreg hr), fun s => ?_,
    fun s r => exec_rdreg_outOfRange, fun s hs hf => ?_⟩
  · have hn : s.cfg.n ≤ 16777216 := n_le s.cfg
    exact ⟨exec_rdreg_legal s (by decide), exec_rdreg_legal s (by decide), exec_rdreg_number s (by decide) rfl hn,
      exec_rdreg_number s (by decide) rfl ((w_le s.cfg).trans (by decide)),
      exec_rdreg_number s (by decide) rfl ((nb_le_n s.cfg).trans hn)⟩
  · obtain ⟨-, hrec, -⟩ := (inv_iff s).mp hs
    obtain ⟨hcause, hfinfo⟩ := (faultRecordOk_of_unfaulted hf).mp hrec
    exact ⟨status_unfaulted hf hcause, hfinfo⟩

end Sys2Proof.Machine
end

section
/-! Exceptions (60_exceptions.md): the order of checks, the fault state, the preciseness of a fault, and the idle block. -/

namespace Sys2Proof.Machine

/-! The idle block (R200). -/

/-- A step without a command empties the response port and changes nothing else of the block. -/
theorem step_idle {s : State} (hcmds : s.cmds = []) (hrst : s.rstIn = []) :
    step s = .next { s with rst := false, rsp := none } := by
  rw [step_of_rstIn_nil hrst]
  simp only [transact, accepted, hcmds]

theorem runSteps_fixed {s : State} (h : step s = .next s) (k : Nat) : runSteps k s = .next s := by
  induction k with
  | zero => rfl
  | succ k ih => simp only [runSteps, h, ih]

/-- Settles O13: the first idle step reaches a state that every further one leaves as it is. -/
theorem idleBlockKeepsItsState : Obligations.IdleBlockKeepsItsState := by
  intro k s hcmds hrst hk
  obtain ⟨k, rfl⟩ := Nat.exists_eq_succ_of_ne_zero hk.ne'
  have hfixed : step { s with rst := false, rsp := none } = .next { s with rst := false, rsp := none } :=
    step_idle hcmds hrst
  refine ⟨_, ?_, rfl, rfl⟩
  simp only [runSteps, step_idle hcmds hrst, runSteps_fixed hfixed]

/-! The range check of a command (R183 to R185). -/

theorem rangeCause_ne_none (p : Params) (i : Instr) : rangeCause p i ≠ some .none := by
  cases i <;> simp [rangeCause]

/-- The range check of a checked command, as `rangeCause` spells it, fails. -/
theorem checked_of_range_some {s effect : State} {legal : Prop} [Decidable legal] {c c' : Cause} {w : CmdWord}
    (hf : s.fault = false) (h : (if legal then none else some c') = some c) :
    checked s (decide legal) c' w effect = .next (raiseFault s c w) := by
  obtain ⟨hl, hc⟩ := Option.ite_none_left_eq_some.mp h
  cases hc
  exact checked_illegal c w effect hf (decide_eq_false hl)

/-- The range check of a checked command, as `rangeCause` spells it, passes. -/
theorem checked_of_range_none {s effect : State} {legal : Prop} [Decidable legal] {c : Cause} {w : CmdWord}
    (hf : s.fault = false) (h : (if legal then none else some c) = none) :
    checked s (decide legal) c w effect = .next effect :=
  checked_ok c w effect hf (by simpa using h)

/-- While FAULT = 0 a command that fails its range check raises that cause with its own word. -/
theorem exec_outOfRange {i : Instr} {s : State} {c : Cause} (hf : s.fault = false)
    (h : rangeCause s.cfg i = some c) : exec i s = .next (raiseFault s c (encodeWord i)) := by
  cases i with
  | nop => exact nomatch h
  | read i => exact checked_of_range_some hf h
  | flip i => exact checked_of_range_some hf h
  | cflip i b => exact checked_of_range_some hf h
  | step => exact nomatch h
  | rdblk b => exact checked_of_range_some hf h
  | wrblk b din => exact checked_of_range_some hf h
  | rdreg r =>
    obtain ⟨hr, hc⟩ := Option.ite_none_left_eq_some.mp h
    cases hc
    rw [exec_rdreg_illegal s (Nat.lt_of_not_le hr), violation_unfaulted _ _ hf]

/-- While FAULT = 0 a command that passes its range check completes without error. -/
theorem exec_inRange {i : Instr} {s : State} (hf : s.fault = false) (h : rangeCause s.cfg i = none) :
    ∃ t, exec i s = .next t ∧ t.fault = s.fault ∧ ∃ x, t.rsp = some ⟨false, x⟩ := by
  cases i with
  | nop => exact ⟨_, rfl, rfl, _, rfl⟩
  | read i => exact ⟨_, checked_of_range_none hf h, rfl, _, rfl⟩
  | flip i => exact ⟨_, checked_of_range_none hf h, rfl, _, rfl⟩
  | cflip i b => exact ⟨_, checked_of_range_none hf h, condFlipAt_fault s _ b, _, rfl⟩
  | step =>
    obtain ⟨t, ht, hrsp, -, hframe⟩ := exec_step_frame hf
    exact ⟨t, ht, by rw [hframe], _, hrsp⟩
  | rdblk b => exact ⟨_, checked_of_range_none hf h, rfl, _, rfl⟩
  | wrblk b din => exact ⟨_, checked_of_range_none hf h, rfl, _, rfl⟩
  | rdreg r => exact ⟨_, exec_rdreg_legal s (by simpa [rangeCause] using h), rfl, _, rfl⟩

/-! The fault state (R190). -/

theorem allowedInFault_iff (i : Instr) : allowedInFault i = true ↔ i = .nop ∨ ∃ r, r ≤ 4 ∧ i = .rdreg r := by
  cases i <;> simp [allowedInFault, regLegal]

/-- A command that the fault state executes answers, and changes nothing but the response, in every state. -/
theorem exec_allowedInFault {i : Instr} (h : allowedInFault i = true) (s : State) :
    ∃ x, exec i s = .next { s with rsp := some ⟨false, x⟩ } := by
  obtain rfl | ⟨r, hr, rfl⟩ := (allowedInFault_iff i).mp h
  · exact ⟨_, rfl⟩
  · exact ⟨_, exec_rdreg_legal s hr⟩

theorem exec_refused {i : Instr} {s : State} (hf : s.fault = true) (h : allowedInFault i = false) :
    exec i s = .next (refuse s) := by
  cases i with
  | nop => exact nomatch h
  | read i => exact checked_faulted _ _ _ _ hf
  | flip i => exact checked_faulted _ _ _ _ hf
  | cflip i c => exact checked_faulted _ _ _ _ hf
  | step => exact if_pos hf
  | rdblk b => exact checked_faulted _ _ _ _ hf
  | wrblk b din => exact checked_faulted _ _ _ _ hf
  | rdreg r =>
    have hr : 4 < r := by simpa [allowedInFault, regLegal] using h
    rw [exec_rdreg_illegal s hr, violation_faulted _ _ hf]

/-! The order of checks of an accepted word (R189). -/

theorem executeCommand_refused {w : CmdWord} {din : Word} {s : State} (hf : s.fault = true)
    (h : ∀ i, decode w din = .ok i → allowedInFault i = false) :
    executeCommand ⟨w, din⟩ s = .next { s with rsp := some ⟨true, 0⟩ } := by
  cases hd : decode w din with
  | ok i => exact (executeCommand_ok (c := ⟨w, din⟩) hd s).trans (exec_refused hf (h i hd))
  | error e =>
    rw [executeCommand_error (c := ⟨w, din⟩) hd, violation_faulted _ _ hf]
    rfl

theorem executeCommand_outOfRange {w : CmdWord} {din : Word} {i : Instr} {s : State} {c : Cause}
    (hf : s.fault = false) (hd : decode w din = .ok i) (h : rangeCause s.cfg i = some c) :
    executeCommand ⟨w, din⟩ s = .next { s with fault := true, cause := c, finfo := w, rsp := some ⟨true, 0⟩ } := by
  obtain ⟨hword, -, -⟩ := encodeOfDecode w din i hd
  rw [executeCommand_ok (c := ⟨w, din⟩) hd, exec_outOfRange hf h, raiseFault_unfaulted _ _ hf, hword]

/-- Settles O44: one lemma per check; the command that passes them all is one in range, or one that no check of the
fault state holds back. -/
theorem checksAreInOrder : Obligations.ChecksAreInOrder := by
  intro s w d
  refine ⟨executeCommand_refused, executeCommand_undecodable, fun i c => executeCommand_outOfRange,
    fun i hpass hd => ⟨executeCommand_ok (c := ⟨w, d⟩) hd s, ?_⟩⟩
  obtain ⟨hf, hrange⟩ | hallowed := hpass
  · exact exec_inRange hf hrange
  · obtain ⟨x, hx⟩ := exec_allowedInFault hallowed s
    exact ⟨_, hx, rfl, x, rfl⟩

/-- Settles O45: 0 and the words of RDREG 0 to 4 spell the allowed commands, and a word that spells one of these is
among them. -/
theorem faultStateRefusesTheRest : Obligations.FaultStateRefusesTheRest := by
  intro s w d hf
  refine ⟨?_, ?_, fun h0 hreg => executeCommand_refused hf fun i hd => ?_⟩
  · rintro rfl
    exact executeCommand_ok (c := ⟨0, d⟩) ((decode_eq_nop_iff 0 d).mpr rfl) s
  · rintro r hr rfl
    have hfit : r < 16777216 := by omega
    have hd : decode (0x70000000 ||| BitVec.ofNat 32 r) d = .ok (.rdreg r) :=
      encodeWord_rdreg hfit ▸ decode_encodeWord (i := .rdreg r) ((fitsArg_iff r).mpr hfit) d
    exact (executeCommand_ok (c := ⟨_, d⟩) hd s).trans (exec_rdreg_legal s hr)
  · obtain ⟨hword, -, -⟩ := encodeOfDecode w d i hd
    rw [← Bool.not_eq_true, allowedInFault_iff]
    rintro (rfl | ⟨r, hr, rfl⟩)
    · exact h0 hword.symm
    · exact hreg r hr (hword.symm.trans (encodeWord_rdreg (by omega)))

/-- While FAULT = 1 every accepted word changes the response port alone. -/
theorem executeCommand_faulted {s : State} (hf : s.fault = true) (c : Command) :
    ∃ r, executeCommand c s = .next { s with rsp := some r } := by
  by_cases h : ∀ i, decode c.cmd c.din = .ok i → allowedInFault i = false
  · exact ⟨_, executeCommand_refused hf h⟩
  · push Not at h
    obtain ⟨i, hd, hi⟩ := h
    obtain ⟨x, hx⟩ := exec_allowedInFault (by simpa using hi) s
    exact ⟨_, (executeCommand_ok hd s).trans hx⟩

/-- Settles O46: an idle step and an accepted word keep the record and the storage of the fault state, and a step under
reset ends in `resetBlock`. -/
theorem onlyResetClearsAFault : Obligations.OnlyResetClearsAFault := by
  intro s t hf h
  obtain ⟨hlow, -, hstep⟩ | ⟨hlow, c, rest, -, hstep⟩ | ⟨hhigh, -, hstep⟩ | ⟨hhigh, -, hstep⟩ := step_cases s <;>
    rw [hstep] at h
  · cases h
    exact ⟨fun _ => ⟨hf, rfl, rfl, rfl⟩, fun hhigh => absurd hhigh (by simp [hlow])⟩
  · obtain ⟨r, hr⟩ := executeCommand_faulted (s := accepted { s with rstIn := s.rstIn.tail } rest) hf c
    cases hr.symm.trans h
    exact ⟨fun _ => ⟨hf, rfl, rfl, rfl⟩, fun hhigh => absurd hhigh (by simp [hlow])⟩
  · cases h
    exact ⟨fun hlow => absurd hlow (by simp [hhigh]), fun _ => ⟨rfl, rfl, rfl⟩⟩
  · cases h
    exact ⟨fun hlow => absurd hlow (by simp [hhigh]), fun _ => ⟨rfl, rfl, rfl⟩⟩

/-! Faults are precise (R187). -/

/-- Settles O47: a word that leaves FAULT = 1 failed to decode or failed its range check, and either check writes the
record alone. -/
theorem faultsArePrecise : Obligations.FaultsArePrecise := by
  intro s t w d hf h ht
  cases hd : decode w d with
  | error e =>
    rw [executeCommand_undecodable hf (by simp [hd])] at h
    cases h
    exact ⟨rfl, nofun⟩
  | ok i =>
    cases hrange : rangeCause s.cfg i with
    | some c =>
      rw [executeCommand_outOfRange hf hd hrange] at h
      cases h
      exact ⟨rfl, fun hc => rangeCause_ne_none s.cfg i (hc ▸ hrange)⟩
    | none =>
      obtain ⟨u, hu, hfault, -⟩ := exec_inRange hf hrange
      rw [executeCommand_ok (c := ⟨w, d⟩) hd, hu] at h
      cases h
      simp [hfault, hf] at ht

end Sys2Proof.Machine
end

section
/-! Reset (70_reset_and_hazards.md): the state a step with `rst` high leaves, idle or with a command outstanding. -/

namespace Sys2Proof.Machine

/-! The steps under reset (R210, R212). -/

theorem step_of_rstIn_high {s : State} {later : List RstEvent} (h : s.rstIn = .high :: later) :
    step s = .next (resetBlock { s with rstIn := later }) := by
  simp only [step, hostStep, h]

/-- The command that `rst` cuts off has been accepted, so the host no longer offers it. -/
theorem step_of_rstIn_during {s : State} {later : List RstEvent} (h : s.rstIn = .during :: later) :
    step s = .next (resetBlock { s with rstIn := later, cmds := s.cmds.tail }) := by
  simp only [step, hostStep, h]

/-! What reset leaves (R211). -/

@[simp] theorem resetBlock_status (s : State) : (resetBlock s).status = 0#16 ++ (s.cfg.rule ++ 0#8) := by
  have hlow : causeCode .none ++ (0#3 ++ BitVec.ofBool false) = 0#8 := rfl
  rw [State.status, resetBlock_cfg, resetBlock_cause, resetBlock_fault, hlow]

/-- Settles O14: the step is `resetBlock`, which lists no block, so each reads its `initWord`. -/
theorem resetRestoresTheResetState : Obligations.ResetRestoresTheResetState := by
  intro s later hrst
  refine ⟨_, step_of_rstIn_high hrst, rfl, fun b k => ?_, resetBlock_status _, rfl, rfl, rfl, rfl, rfl⟩
  rw [resetBlock_blk, getLsbD_initWord]

/-- Settles O15: the step is `resetBlock` of the state without the accepted command, and that agrees with `resetFor`
on the storage and STATUS (`resetBlock_eq_resetFor`). -/
theorem resetDuringACommandAbandonsIt : Obligations.ResetDuringACommandAbandonsIt := by
  intro s later c rest hrst hcmds
  refine ⟨_, step_of_rstIn_during hrst, ?_, rfl, fun b => ?_, ?_, rfl, rfl, rfl, rfl, rfl⟩
  · rw [resetBlock_cmds, hcmds, List.tail_cons]
  · rw [resetBlock_blk, resetFor_blk]
  · rw [resetBlock_eq_resetFor]; rfl

end Sys2Proof.Machine
end
